-- ==== Sys2Proof/Config.lean ====
section
/-! DEFINITION. The parameters of the block and of its host (spec 00_scope.md R5): this hardware's values, and the
parameters as one argument that the block's operations and the host's procedures take.
No value of the spec is left free by the model (41_compute.md R113: the only unspecified values are bytes of BUF
that nothing has written, and those the model refuses, 20_memory.md R54), so no constant here is opaque. -/

namespace Sys2Proof.Config

/-- `W`: width in bits of POLY, REG, CRC and of every value in the divider (R5, D2). `Word` is `BitVec 32`. -/
def W : Nat := 32

/-- `BUF_LEN`: number of bytes of the data buffer BUF (R5, D4). -/
def bufLen : Nat := 512

/-- `BYTE`: bits per element of the data buffer, fixed (R5). `Byte` is `BitVec 8`. -/
def byteBits : Nat := 8

/-- `CHUNK_W`: nominal chunk width in bytes of the host's partition (R5; host parameter). -/
def chunkW : Nat := 64

/-- `REGION_LEN`: bytes of a record's data region (R5; host parameter). -/
def regionLen : Nat := 504

/-- `TRAILER_LEN`: characters of a record's trailer (R5; host parameter). -/
def trailerLen : Nat := 8

/-- `POLY_REF`: the reference polynomial, x^15 + x^13 + x^6 + x^4 + x + 1 (R5, R131; host constant). -/
def polyRef : BitVec 32 := 0xA053#32

/-- `FILL_BYTE`: the filler of short records, the character `.` (R5, R129; host constant). -/
def fillByte : BitVec 8 := 0x2E#8

/-- The named parameters of R5 that an instance takes as an argument. `W` is not among them: it is the width argument of
the divider's micro-operations and, at 32, the type `Word` (D2; log entry 7); `BYTE` is fixed. -/
structure Params where
  /-- `BUF_LEN`. -/
  bufLen : Nat
  /-- `CHUNK_W`. -/
  chunkW : Nat
  /-- `REGION_LEN`. -/
  regionLen : Nat
  /-- `TRAILER_LEN`. -/
  trailerLen : Nat
  /-- `POLY_REF`. -/
  polyRef : BitVec 32
  /-- `FILL_BYTE`. -/
  fillByte : BitVec 8
  deriving DecidableEq, Repr

/-- The column "constraint" of R5. -/
def Params.legal (P : Params) : Bool :=
  1 ≤ P.bufLen && P.bufLen ≤ 65535 && 1 ≤ P.chunkW && P.regionLen ≤ P.bufLen && P.trailerLen == 8 && P.polyRef != 0#32

/-- The column "this hardware" of R5. -/
def thisHardware : Params where
  bufLen := bufLen
  chunkW := chunkW
  regionLen := regionLen
  trailerLen := trailerLen
  polyRef := polyRef
  fillByte := fillByte

theorem thisHardware_legal : thisHardware.legal = true := by decide
theorem one_le_W : 1 ≤ W := by decide

@[simp] theorem thisHardware_bufLen : thisHardware.bufLen = bufLen := rfl
@[simp] theorem thisHardware_chunkW : thisHardware.chunkW = chunkW := rfl
@[simp] theorem thisHardware_regionLen : thisHardware.regionLen = regionLen := rfl
@[simp] theorem thisHardware_trailerLen : thisHardware.trailerLen = trailerLen := rfl
@[simp] theorem thisHardware_polyRef : thisHardware.polyRef = polyRef := rfl
@[simp] theorem thisHardware_fillByte : thisHardware.fillByte = fillByte := rfl

end Sys2Proof.Config
end

