-- ==== Sys2Proof/Word.lean ====
section
/-! DEFINITION. The words of the block (spec 00_scope.md R5, R8; 30_encoding.md R60, R65). All values are
unsigned; bit 0 is the least significant bit. -/

namespace Sys2Proof

/-- A value of POLY, REG, CRC: `W` = 32 bits (R5, R21 to R23). -/
abbrev Word := BitVec 32

/-- One element of BUF: 8 bits (R5 `BYTE`, R25). -/
abbrev Byte := BitVec 8

/-- A command word, `cmd[35:0]` (R60). -/
abbrev CmdWord := BitVec 36

/-- A response word, `rsp[35:0]` (R65). -/
abbrev RspWord := BitVec 36

/-- The width of `Word` is the parameter `W` of R5. -/
theorem word_width_is_W : Word = BitVec Config.W := rfl

/-- The width of `Byte` is the parameter `BYTE` of R5. -/
theorem byte_width_is_BYTE : Byte = BitVec Config.byteBits := rfl

end Sys2Proof
end

