-- ==== Sys2Proof/Syntax.lean ====
section
/-! DEFINITION. The nine commands (spec 30_encoding.md R63), one constructor per row of the opcode table. -/

namespace Sys2Proof

/-- A command with its operands (R61 to R63). `imm` and `data` are bits; `start`, `len` and `addr` are naturals,
used in unbounded arithmetic (R62); `Instr.wellFormed` says that they fit their 16-bit fields. -/
inductive Instr where
  /-- LDPOLY `imm`: load the polynomial (R80). -/
  | ldpoly (imm : Word)
  /-- LDREG `imm`: load the carried register (R81). -/
  | ldreg (imm : Word)
  /-- COMPUTE `start`, `len`: run the divider over a byte range (R106). -/
  | compute (start len : Nat)
  /-- RDCRC: read the result register (R82). -/
  | rdcrc
  /-- RDREG: read the carried register (R83). -/
  | rdreg
  /-- RDPOLY: read the polynomial register (R84). -/
  | rdpoly
  /-- RDSTAT: read the status register (R85). -/
  | rdstat
  /-- WRBUF `addr`, `data`: write one buffer byte (R86). -/
  | wrbuf (addr : Nat) (data : Byte)
  /-- RDBUF `addr`: read one buffer byte (R87). -/
  | rdbuf (addr : Nat)
  deriving DecidableEq, Repr

/-- Is the command a COMPUTE? A faulting COMPUTE clears STATUS.CRCV, no other fault does (60_exceptions.md R148). -/
def Instr.isCompute : Instr → Bool
  | .compute _ _ => true
  | .ldpoly _ | .ldreg _ | .rdcrc | .rdreg | .rdpoly | .rdstat | .wrbuf _ _ | .rdbuf _ => false

end Sys2Proof
end

