-- ==== Sys2Proof/WellFormed.lean ====
section
/-! DEFINITION. When a command fits its encoding: every address and length is a 16-bit field (spec 30_encoding.md
R61, R62; an operand that does not fit is an assembly error, R68). -/

namespace Sys2Proof

/-- A natural that fits the 16-bit fields `start`, `len` and `addr` (R62). -/
def fits16 (n : Nat) : Bool := n < 65536

/-- Every operand fits its field (R62, R68). -/
def Instr.wellFormed : Instr → Bool
  | .ldpoly _ => true
  | .ldreg _ => true
  | .compute start len => fits16 start && fits16 len
  | .rdcrc => true
  | .rdreg => true
  | .rdpoly => true
  | .rdstat => true
  | .wrbuf addr _ => fits16 addr
  | .rdbuf addr => fits16 addr

end Sys2Proof
end

