-- ==== Sys2Proof/Decode.lean ====
section
/-! DEFINITION. The command encoding (spec 30_encoding.md R60 to R64, R67, R70): the fields of a 36-bit command word,
the decoder, total on all words, the encoder, and the opcode map as rows. -/

namespace Sys2Proof

/-- `op = cmd[35:32]` (R60). -/
def opField (c : CmdWord) : BitVec 4 := c.extractLsb' 32 4

/-- `imm = cmd[31:0]`, format V (R61, R62). Also the `zero` field of format N. -/
def immField (c : CmdWord) : Word := c.extractLsb' 0 32

/-- `start` of format R, `addr` of formats B and A: `cmd[31:16]`, a natural (R61, R62). -/
def highField (c : CmdWord) : Nat := (c.extractLsb' 16 16).toNat

/-- `len = cmd[15:0]` of format R, a natural (R61, R62). -/
def lenField (c : CmdWord) : Nat := (c.extractLsb' 0 16).toNat

/-- `data = cmd[7:0]` of format B (R61, R62). -/
def dataField (c : CmdWord) : Byte := c.extractLsb' 0 8

/-- The `zero` field of format N, `cmd[31:0]` (R61). -/
def zeroFieldN (c : CmdWord) : BitVec 32 := c.extractLsb' 0 32

/-- The `zero` field of format B, `cmd[15:8]` (R61). -/
def zeroFieldB (c : CmdWord) : BitVec 8 := c.extractLsb' 8 8

/-- The `zero` field of format A, `cmd[15:0]` (R61). -/
def zeroFieldA (c : CmdWord) : BitVec 16 := c.extractLsb' 0 16

/-- The decode function of R70, arm by arm; `none` is Illegal (R64). -/
def decode (c : CmdWord) : Option Instr :=
  if opField c = 0x1#4 then some (.ldpoly (immField c))
  else if opField c = 0x2#4 then some (.ldreg (immField c))
  else if opField c = 0x3#4 then some (.compute (highField c) (lenField c))
  else if opField c = 0x4#4 ∧ zeroFieldN c = 0#32 then some .rdcrc
  else if opField c = 0x5#4 ∧ zeroFieldN c = 0#32 then some .rdreg
  else if opField c = 0x6#4 ∧ zeroFieldN c = 0#32 then some .rdpoly
  else if opField c = 0x7#4 ∧ zeroFieldN c = 0#32 then some .rdstat
  else if opField c = 0x8#4 ∧ zeroFieldB c = 0#8 then some (.wrbuf (highField c) (dataField c))
  else if opField c = 0x9#4 ∧ zeroFieldA c = 0#16 then some (.rdbuf (highField c))
  else none

/-- The encoder of R70. An operand that does not fit is cut to its field; `assembleInstr` refuses it first (R68). -/
def encode : Instr → CmdWord
  | .ldpoly imm => 0x1#4 ++ imm
  | .ldreg imm => 0x2#4 ++ imm
  | .compute start len => 0x3#4 ++ BitVec.ofNat 16 start ++ BitVec.ofNat 16 len
  | .rdcrc => 0x4#4 ++ 0#32
  | .rdreg => 0x5#4 ++ 0#32
  | .rdpoly => 0x6#4 ++ 0#32
  | .rdstat => 0x7#4 ++ 0#32
  | .wrbuf addr data => 0x8#4 ++ BitVec.ofNat 16 addr ++ 0#8 ++ data
  | .rdbuf addr => 0x9#4 ++ BitVec.ofNat 16 addr ++ 0#16

/-- The word of a command, where every operand fits its field; else none ("the assembler produces no word", R68). -/
def assembleInstr (i : Instr) : Option CmdWord :=
  if i.wellFormed then some (encode i) else none

/-- A row of the opcode map: a word `c` selects the row when `c &&& mask = bits` (R63, column `match`). -/
structure OpcodeRow where
  mnemonic : String
  mask : CmdWord
  bits : CmdWord
  deriving DecidableEq, Repr

/-- Does the word select the row? (R63) -/
def OpcodeRow.selects (r : OpcodeRow) (c : CmdWord) : Bool := c &&& r.mask == r.bits

/-- The opcode map of R63, mask and match as the table has them. -/
def opcodeMap : List OpcodeRow :=
  [⟨"LDPOLY", 0xF00000000#36, 0x100000000#36⟩,
   ⟨"LDREG", 0xF00000000#36, 0x200000000#36⟩,
   ⟨"COMPUTE", 0xF00000000#36, 0x300000000#36⟩,
   ⟨"RDCRC", 0xFFFFFFFFF#36, 0x400000000#36⟩,
   ⟨"RDREG", 0xFFFFFFFFF#36, 0x500000000#36⟩,
   ⟨"RDPOLY", 0xFFFFFFFFF#36, 0x600000000#36⟩,
   ⟨"RDSTAT", 0xFFFFFFFFF#36, 0x700000000#36⟩,
   ⟨"WRBUF", 0xF0000FF00#36, 0x800000000#36⟩,
   ⟨"RDBUF", 0xF0000FFFF#36, 0x900000000#36⟩]

/-- The mnemonic of a command, as R63 spells it. -/
def Instr.mnemonic : Instr → String
  | .ldpoly _ => "LDPOLY"
  | .ldreg _ => "LDREG"
  | .compute _ _ => "COMPUTE"
  | .rdcrc => "RDCRC"
  | .rdreg => "RDREG"
  | .rdpoly => "RDPOLY"
  | .rdstat => "RDSTAT"
  | .wrbuf _ _ => "WRBUF"
  | .rdbuf _ => "RDBUF"

/-- The 36-bit command word that the number `w` of `nbits` bits stands for, its bits numbered as the opcode table
numbers them (bit 0 least significant, every bit from `nbits` up 0); none where it has a bit above bit 35, which the
command port has not (log entry 11). -/
def tableWord (nbits w : Nat) : Option CmdWord :=
  if w % 2 ^ nbits < 2 ^ 36 then some (BitVec.ofNat 36 (w % 2 ^ nbits)) else none

/-- The instruction the decoder reads from that word (fixed name of the host). -/
def decodeTableWord (nbits w : Nat) : Option Instr := (tableWord nbits w).bind decode

end Sys2Proof
end

