-- ==== Sys2Proof/Machine/State.lean ====
section
/-! DEFINITION. The state of one CRCDIV instance (spec 10_state.md R20 to R30) as plain data, with the host's streams
beside it, and the machine right after reset. -/

namespace Sys2Proof.Machine

/-- The block's three faults (spec 60_exceptions.md R140). THE BLOCK REPORTS THEM IN BAND: the command answers a
response with the fault's code and the machine goes on (R148, R150), so `step` answers a NEXT state and no step ends
with `Host.Outcome.fault` (log entry 6). The same names serve as the host's own errors (R128, R157). -/
inductive Fault where
  /-- Code 1: POLY = 0 at a COMPUTE. Raised by COMPUTE (R141). Safe: it is the spec's own fault, with its effect. -/
  | invalidPolynomial
  /-- Code 2: the command names a buffer byte at or above `BUF_LEN`. Raised by COMPUTE, WRBUF, RDBUF (R142), and by the
  host on a short region (R128). Safe: it is the spec's own fault, with its effect. -/
  | insufficientData
  /-- Code 3: the word decodes to no command. Raised by the decoding of a command word (R143). Safe: it is the spec's
  own fault, with its effect. -/
  | illegalCommand
  deriving DecidableEq, Repr

/-- Why the model gives no meaning to a step. -/
inductive Refusal where
  /-- Raised by `exec` for an instruction without a meaning; no instruction of this model is one. Safe. -/
  | notModelled (mnemonic : String)
  /-- Raised by RDBUF of a byte, and by COMPUTE over a range with a byte, that no WRBUF has written since reset; `addr`
  is the (first such) address. The spec asks for it: "gives no meaning to (refuses) an RDBUF of an unwritten byte or a
  COMPUTE whose range contains one" (20_memory.md R54; log entry 4). Safe. -/
  | unwrittenByte (addr : Nat)
  deriving DecidableEq, Repr

/-- A response: status OK with a data word, or a fault's status with data 0 (30_encoding.md R65, R66, R71). Its 36-bit
word is `Response.word`. -/
inductive Response where
  | ok (dat : Word)
  | fault (f : Fault)
  deriving DecidableEq, Repr

/-- One thing the host does to the block (00_scope.md R7; 70_reset_and_hazards.md R170, R171). -/
inductive HostInput where
  /-- A command word presented on the command port (R60). -/
  | command (c : CmdWord)
  /-- The reset input, asserted between commands (R170). -/
  | reset
  /-- A command word presented and cut short by the reset input: it gives no response (R170, R171). -/
  | resetDuring (c : CmdWord)
  deriving DecidableEq, Repr

/-- STATUS, its four flags (10_state.md R24); bits 31 to 4 are not state. -/
structure Status where
  /-- CRC holds the result of the most recent COMPUTE, which ended without fault. -/
  crcv : Bool
  /-- Some command since reset raised InvalidPolynomial (sticky). -/
  epoly : Bool
  /-- Some command since reset raised InsufficientData (sticky). -/
  edata : Bool
  /-- Some command word since reset raised IllegalCommand (sticky). -/
  ecmd : Bool
  deriving DecidableEq, Repr

/-- BUF: the pairs (address, byte) of the bytes written since reset (10_state.md R25, 20_memory.md R54), in the
canonical form `Memory.wf`: addresses strictly rising, each below `BUF_LEN`. An address not listed is UNWRITTEN: it
reads as no value (log entry 4). -/
abbrev Memory := List Host.Cell

/-- The state: R20's tuple, then the two streams that join the block to its host (log entry 1). -/
structure State where
  /-- POLY, the polynomial register (R21). -/
  poly : Word
  /-- REG, the carried CRC register: the remainder before padding (R22). -/
  reg : Word
  /-- CRC, the result register: the drained value (R23). -/
  crc : Word
  /-- STATUS (R24). -/
  status : Status
  /-- BUF, the data buffer (R25). -/
  buf : Memory
  /-- The model's own: what the host will do next, oldest first (R29: the command stream is an input). -/
  inputs : List HostInput
  /-- The model's own: the responses given so far, oldest first (R65). -/
  rsps : List Response
  deriving DecidableEq, Repr

/-- Right after reset (R30, R170): every register and flag 0, every byte of BUF unwritten for the model; the streams
empty (log entry 5). -/
def State.reset : State where
  poly := 0#32
  reg := 0#32
  crc := 0#32
  status := { crcv := false, epoly := false, edata := false, ecmd := false }
  buf := []
  inputs := []
  rsps := []

end Sys2Proof.Machine
end

