-- ==== Sys2Proof/Machine/Flags.lean ====
section
/-! DEFINITION. Every flag computation of the block: the word RDSTAT reads, what sets a flag and what clears one
(spec 10_state.md R24, 60_exceptions.md R148). -/

namespace Sys2Proof.Machine

/-- `{ECMD, EDATA, EPOLY, CRCV}`: bit 3 ECMD, bit 2 EDATA, bit 1 EPOLY, bit 0 CRCV (R24, R85). -/
def Status.bits (t : Status) : BitVec 4 :=
  BitVec.ofBool t.ecmd ++ BitVec.ofBool t.edata ++ BitVec.ofBool t.epoly ++ BitVec.ofBool t.crcv

/-- STATUS as read: `zext_32({ECMD, EDATA, EPOLY, CRCV})`; bits 31 to 4 read as 0 (R24, R85). -/
def Status.word (t : Status) : Word := t.bits.setWidth 32

/-- A fault sets its sticky bit and no other (R148). -/
def Status.record (t : Status) (f : Fault) : Status :=
  match f with
  | .invalidPolynomial => { t with epoly := true }
  | .insufficientData => { t with edata := true }
  | .illegalCommand => { t with ecmd := true }

/-- The flags after a fault: the sticky bit set, and CRCV cleared if the command is a COMPUTE (R148). -/
def Status.afterFault (t : Status) (f : Fault) (byCompute : Bool) : Status :=
  if byCompute then { t.record f with crcv := false } else t.record f

/-- The flags after a COMPUTE without fault: CRCV set, the sticky bits as they were (R24, R106). -/
def Status.afterCompute (t : Status) : Status := { t with crcv := true }

/-- The sticky bit that belongs to a fault (R24, R140). -/
def Status.sticky (t : Status) (f : Fault) : Bool :=
  match f with
  | .invalidPolynomial => t.epoly
  | .insufficientData => t.edata
  | .illegalCommand => t.ecmd

/-- The status code `st` of a fault (30_encoding.md R66). -/
def Fault.code (f : Fault) : BitVec 4 :=
  match f with
  | .invalidPolynomial => 0x1#4
  | .insufficientData => 0x2#4
  | .illegalCommand => 0x3#4

/-- `st` of a response (R65, R66): 0 is OK. -/
def Response.st (r : Response) : BitVec 4 :=
  match r with
  | .ok _ => 0x0#4
  | .fault f => f.code

/-- `dat` of a response: 0 whenever `st` is not OK (R65). -/
def Response.dat (r : Response) : Word :=
  match r with
  | .ok v => v
  | .fault _ => 0#32

/-- The 36-bit response word `{st, dat}` (R65). -/
def Response.word (r : Response) : RspWord := r.st ++ r.dat

end Sys2Proof.Machine
end

