-- ==== Sys2Proof/Machine/Ops.lean ====
section
/-! DEFINITION. The shared operations: the bytes of BUF (spec 20_memory.md R41, R54), answering (00_scope.md R11),
taking a fault (60_exceptions.md R148) and the reset transition (70_reset_and_hazards.md R170). -/

namespace Sys2Proof.Machine

/-- The byte that an address holds, or none where no WRBUF has written it since reset (R54). No bound check (R10). -/
def Memory.read : Memory → Nat → Option Byte
  | [], _ => none
  | (b, y) :: m, a => if a = b then some y else Memory.read m a

/-- The buffer with the byte `v` at `a` (R41), the addresses kept strictly rising. No bound check (R10). -/
def Memory.write : Memory → Nat → Byte → Memory
  | [], a, v => [(a, v)]
  | (b, y) :: m, a, v =>
    if a < b then (a, v) :: (b, y) :: m
    else if a = b then (a, v) :: m
    else (b, y) :: Memory.write m a v

/-- Addresses strictly rising, each at least `lo` and below `hi`. -/
def Memory.risingFrom (hi lo : Nat) : Memory → Bool
  | [] => true
  | (a, _) :: m => lo ≤ a && a < hi && Memory.risingFrom hi (a + 1) m

/-- The canonical form of a buffer of `bufLen` bytes: addresses strictly rising and below `bufLen`. -/
def Memory.wfIn (bufLen : Nat) (m : Memory) : Bool := Memory.risingFrom bufLen 0 m

/-- The canonical form of BUF. Equal buffers are then equal lists. -/
def Memory.wf (m : Memory) : Bool := m.wfIn Config.bufLen

/-- What a checked read of one byte gives: the byte, a fault, or a byte nobody has written (R41, R54). -/
inductive ReadResult where
  | byte (y : Byte)
  | insufficientData
  | unwritten
  deriving DecidableEq, Repr

/-- `MemRead(a, 1)` of R41, with the written-mark of R54; the bound check comes first. -/
def memRead (P : Config.Params) (m : Memory) (a : Nat) : ReadResult :=
  if a ≥ P.bufLen then .insufficientData
  else
    match m.read a with
    | some y => .byte y
    | none => .unwritten

/-- `MemWrite(a, 1, v)` of R41; none where it raises InsufficientData. -/
def memWrite (P : Config.Params) (m : Memory) (a : Nat) (v : Byte) : Option Memory :=
  if a ≥ P.bufLen then none else some (m.write a v)

/-- `respond(v)`: the command ends with status OK and data `v` (R11, R65). -/
def respond (v : Word) (s : State) : State := { s with rsps := s.rsps ++ [.ok v] }

/-- TAKING A FAULT (R148), the block's exception: POLY, REG, CRC and BUF unchanged, the fault's sticky bit set, CRCV
cleared if the command is a COMPUTE, and the response carries the fault's code and data 0. Nothing is saved and
control goes nowhere, so there is no return from it: the block is ready for the next command (R150). -/
def raise (f : Fault) (byCompute : Bool) (s : State) : State :=
  { s with status := s.status.afterFault f byCompute, rsps := s.rsps ++ [.fault f] }

/-- The reset transition (R170, R171): the block's state goes to its reset values, whatever it was. What the host has
still to do and the responses it already has are the host's and stay (log entry 3). -/
def applyReset (s : State) : State := { State.reset with inputs := s.inputs, rsps := s.rsps }

end Sys2Proof.Machine
end

