-- ==== Sys2Proof/Machine/Operands.lean ====
section
/-! DEFINITION. The operands of the commands beyond plain fields: COMPUTE's byte range (spec 41_compute.md R104, R106;
20_memory.md R42, R47, R54) and the zero-extended byte of RDBUF (40_config_access.md R87). -/

namespace Sys2Proof.Machine

/-- Does the range stay in the buffer? COMPUTE's check, on naturals: `start + len > BUF_LEN` fails (R47, R106). -/
def rangeFits (P : Config.Params) (start len : Nat) : Bool := start + len ≤ P.bufLen

/-- The bytes `BUF[a], BUF[a+1], ..., BUF[a+n-1]` in ascending address order (R42, R104), or the first address among
them that nobody has written (R54). -/
def readRange (m : Memory) (a : Nat) : Nat → Except Nat (List Byte)
  | 0 => .ok []
  | n + 1 =>
    match m.read a with
    | none => .error a
    | some y =>
      match readRange m (a + 1) n with
      | .ok ys => .ok (y :: ys)
      | .error e => .error e

/-- `zext_32(y)` of a byte (R9, R87). -/
def zextByte (y : Byte) : Word := y.setWidth 32

end Sys2Proof.Machine
end

