-- ==== Sys2Proof/Machine/Access.lean ====
section
/-! DEFINITION. The configuration and access commands (spec 40_config_access.md R80 to R87). -/

namespace Sys2Proof.Machine

/-- LDPOLY `imm` (R80): POLY <- imm, respond(0). Every value is accepted, 0 too. -/
def execLdpoly (imm : Word) (s : State) : Host.Outcome State Fault Refusal :=
  .next (respond 0#32 { s with poly := imm })

/-- LDREG `imm` (R81): REG <- imm, respond(0). CRC and CRCV stay. -/
def execLdreg (imm : Word) (s : State) : Host.Outcome State Fault Refusal :=
  .next (respond 0#32 { s with reg := imm })

/-- RDCRC (R82): respond(CRC), whether or not CRCV is set. -/
def execRdcrc (s : State) : Host.Outcome State Fault Refusal := .next (respond s.crc s)

/-- RDREG (R83): respond(REG). -/
def execRdreg (s : State) : Host.Outcome State Fault Refusal := .next (respond s.reg s)

/-- RDPOLY (R84): respond(POLY). -/
def execRdpoly (s : State) : Host.Outcome State Fault Refusal := .next (respond s.poly s)

/-- RDSTAT (R85): respond(zext_32({ECMD, EDATA, EPOLY, CRCV})); reading clears nothing. -/
def execRdstat (s : State) : Host.Outcome State Fault Refusal := .next (respond s.status.word s)

/-- WRBUF `addr`, `data` (R86) on an instance with the parameters `P`: one byte to BUF, or the fault
InsufficientData. -/
def execWrbufWith (P : Config.Params) (addr : Nat) (data : Byte) (s : State) : Host.Outcome State Fault Refusal :=
  match memWrite P s.buf addr data with
  | some m => .next (respond 0#32 { s with buf := m })
  | none => .next (raise .insufficientData false s)

/-- WRBUF `addr`, `data` (R86) on this hardware. -/
def execWrbuf (addr : Nat) (data : Byte) (s : State) : Host.Outcome State Fault Refusal :=
  execWrbufWith Config.thisHardware addr data s

/-- RDBUF `addr` (R87) on an instance with the parameters `P`: one byte from BUF, or the fault InsufficientData;
refused where nobody has written the byte (20_memory.md R54). -/
def execRdbufWith (P : Config.Params) (addr : Nat) (s : State) : Host.Outcome State Fault Refusal :=
  match memRead P s.buf addr with
  | .byte y => .next (respond (zextByte y) s)
  | .insufficientData => .next (raise .insufficientData false s)
  | .unwritten => .refused (.unwrittenByte addr)

/-- RDBUF `addr` (R87) on this hardware. -/
def execRdbuf (addr : Nat) (s : State) : Host.Outcome State Fault Refusal := execRdbufWith Config.thisHardware addr s

end Sys2Proof.Machine
end

