-- ==== Sys2Proof/Machine/Divider.lean ====
section
/-! DEFINITION. The micro-operations of the divider (spec 41_compute.md R100 to R105), pure functions, written for
every register width `w` (the parameter `W` of 00_scope.md R5; the machine uses them at 32). -/

namespace Sys2Proof.Machine

/-- The largest `i < n` with `p[i] = 1`; 0 where there is none. -/
def degBelow {w : Nat} (p : BitVec w) : Nat → Nat
  | 0 => 0
  | n + 1 => if p.getLsbD n then n else degBelow p n

/-- `deg(p)`, the largest `i` in 0 .. W-1 with `p[i] = 1` (R100). For `p = 0` it is not defined and no command
evaluates it (log entry 9). -/
def deg {w : Nat} (p : BitVec w) : Nat := degBelow p w

/-- `topMask(p) = 1 << deg(p)` (R101). -/
def topMask {w : Nat} (p : BitVec w) : BitVec w := 1#w <<< deg p

/-- Steps 3a and 3b: shift left by 1, bit W-1 discarded, and the incoming bit into bit 0 (R102). -/
def shiftIn {w : Nat} (r : BitVec w) (b : Bool) : BitVec w := r <<< 1 ||| (BitVec.ofBool b).setWidth w

/-- The bit step, one micro-step: shift the bit in, then XOR with `p` when bit `deg(p)` is set (R102). -/
def bitstep {w : Nat} (r : BitVec w) (b : Bool) (p : BitVec w) : BitVec w :=
  if (shiftIn r b).getLsbD (deg p) then shiftIn r b ^^^ p else shiftIn r b

/-- The order of the bits of a byte: 7 down to 0 (R42, R103). -/
def bitOrder : List Nat := [7, 6, 5, 4, 3, 2, 1, 0]

/-- The byte step: eight bit steps, most significant bit first (R103). -/
def bytestep {w : Nat} (r : BitVec w) (y : Byte) (p : BitVec w) : BitVec w :=
  bitOrder.foldl (fun r k => bitstep r (y.getLsbD k) p) r

/-- The block step: the bytes in the given order (R104). -/
def blockstep {w : Nat} (r : BitVec w) (bytes : List Byte) (p : BitVec w) : BitVec w :=
  bytes.foldl (fun r y => bytestep r y p) r

/-- `n` bit steps with a zero incoming bit. -/
def zeroSteps {w : Nat} (p : BitVec w) : Nat → BitVec w → BitVec w
  | 0, r => r
  | n + 1, r => zeroSteps p n (bitstep r false p)

/-- The drain: `deg(p)` bit steps with a zero incoming bit (R105). -/
def drain {w : Nat} (r : BitVec w) (p : BitVec w) : BitVec w := zeroSteps p (deg p) r

/-- The bits of a message in the order in which they enter the divider (R42). -/
def messageBits (bytes : List Byte) : List Bool := bytes.flatMap fun y => bitOrder.map y.getLsbD

/-- The incoming bits of all micro-steps of one COMPUTE, in order: the message, then the drain's zeros (R42, R105,
R112). The number of micro-steps is the length of this list. -/
def microInputs {w : Nat} (bytes : List Byte) (p : BitVec w) : List Bool :=
  messageBits bytes ++ List.replicate (deg p) false

end Sys2Proof.Machine
end

