-- ==== Sys2Proof/Machine/Compute.lean ====
section
/-! DEFINITION. COMPUTE, the command that runs the divider (spec 41_compute.md R106), and the count of its micro-steps
(R112, 70_reset_and_hazards.md R178). -/

namespace Sys2Proof.Machine

/-- The end of a COMPUTE that passed its checks, over the bytes of its range: steps 3 to 6 of R106. REG gets the
checkpoint, the value BEFORE the drain; CRC and the response get the drained value; CRCV is set. -/
def finishCompute (bytes : List Byte) (s : State) : State :=
  respond (drain (blockstep s.reg bytes s.poly) s.poly)
    { s with
      reg := blockstep s.reg bytes s.poly
      crc := drain (blockstep s.reg bytes s.poly) s.poly
      status := s.status.afterCompute }

/-- COMPUTE `start`, `len` (R106) on an instance with the parameters `P`: the polynomial check, then the range check
(R147), then the divider. Refused where the range holds a byte nobody has written (20_memory.md R54), which is seen after
both checks. -/
def execComputeWith (P : Config.Params) (start len : Nat) (s : State) : Host.Outcome State Fault Refusal :=
  if s.poly = 0#32 then .next (raise .invalidPolynomial true s)
  else if !rangeFits P start len then .next (raise .insufficientData true s)
  else
    match readRange s.buf start len with
    | .ok bytes => .next (finishCompute bytes s)
    | .error a => .refused (.unwrittenByte a)

/-- COMPUTE `start`, `len` (R106) on this hardware. -/
def execCompute (start len : Nat) (s : State) : Host.Outcome State Fault Refusal :=
  execComputeWith Config.thisHardware start len s

/-- The micro-steps a command performs in a state: `8*len + deg(POLY)` for a COMPUTE without fault, none for every
other command and for a fault (R112, R178). DESIGN CHOICE (log entry 15): a COMPUTE that the model refuses for an
unwritten byte, to which R54 gives no meaning in a model, counts none. No step of the machine depends on it. -/
def microstepsWith (P : Config.Params) (i : Instr) (s : State) : Nat :=
  match i with
  | .compute start len =>
    if s.poly = 0#32 then 0
    else if !rangeFits P start len then 0
    else
      match readRange s.buf start len with
      | .ok bytes => (microInputs bytes s.poly).length
      | .error _ => 0
  | .ldpoly _ | .ldreg _ | .rdcrc | .rdreg | .rdpoly | .rdstat | .wrbuf _ _ | .rdbuf _ => 0

/-- The micro-steps of a command on this hardware (R112, R178); none for a COMPUTE the model refuses, DESIGN CHOICE
(log entry 15). -/
def microsteps (i : Instr) (s : State) : Nat := microstepsWith Config.thisHardware i s

end Sys2Proof.Machine
end

