-- ==== Sys2Proof/Machine/Dispatch.lean ====
section
/-! DEFINITION. One arm per command (spec 30_encoding.md R63). -/

namespace Sys2Proof.Machine

def exec (i : Instr) (s : State) : Host.Outcome State Fault Refusal :=
  match i with
  | .ldpoly imm => Sys2Proof.Machine.execLdpoly imm s
  | .ldreg imm => Sys2Proof.Machine.execLdreg imm s
  | .compute start len => Sys2Proof.Machine.execCompute start len s
  | .rdcrc => Sys2Proof.Machine.execRdcrc s
  | .rdreg => Sys2Proof.Machine.execRdreg s
  | .rdpoly => Sys2Proof.Machine.execRdpoly s
  | .rdstat => Sys2Proof.Machine.execRdstat s
  | .wrbuf addr data => Sys2Proof.Machine.execWrbuf addr data s
  | .rdbuf addr => Sys2Proof.Machine.execRdbuf addr s

end Sys2Proof.Machine
end

