-- ==== Sys2Proof/Machine/Fetch.lean ====
section
/-! DEFINITION. How a command reaches the block (spec 00_scope.md R6, 10_state.md R27, 30_encoding.md R60, R64): there
is no program counter and no fetch from memory; the block takes what the host does next. -/

namespace Sys2Proof.Machine

/-- What one command does to the block: `exec`, or a parametric instance of it. -/
abbrev Meaning := Instr → State → Host.Outcome State Fault Refusal

/-- A command word at the port: the command it decodes to, or the fault IllegalCommand, which nothing else precedes
(R64, R143, R147) and which leaves CRCV alone (R148). -/
def runWord (run : Meaning) (c : CmdWord) (s : State) : Host.Outcome State Fault Refusal :=
  match decode c with
  | some i => run i s
  | none => .next (raise .illegalCommand false s)

/-- What one input of the host does to the block. A command that reset cuts short has no effect beyond the reset itself
and gives no response (R170, R171). -/
def runInput (run : Meaning) (x : HostInput) (s : State) : Host.Outcome State Fault Refusal :=
  match x with
  | .command c => runWord run c s
  | .reset => .next (applyReset s)
  | .resetDuring _ => .next (applyReset s)

/-- One step: take the host's next input and run it to its end (R6, R49). With no input the block waits and nothing
changes: it "never waits for anything but the next command" (60_exceptions.md R158; log entry 2). -/
def takeStep (run : Meaning) (s : State) : Host.Outcome State Fault Refusal :=
  match s.inputs with
  | [] => .next s
  | x :: rest => runInput run x { s with inputs := rest }

/-- The host presents a command word, ahead of anything else it has still to do. -/
def presentWord (c : CmdWord) (s : State) : State := { s with inputs := .command c :: s.inputs }

end Sys2Proof.Machine
end

