-- ==== Sys2Proof/Machine/Step.lean ====
section
/-! DEFINITION. The step of the machine and the host's way of presenting a word to it. -/

namespace Sys2Proof.Machine

/-- One step of the block: one command, or the reset input, or waiting (spec 00_scope.md R6). -/
def step (s : State) : Host.Outcome State Fault Refusal := takeStep exec s

/-- `s` with the command word `w`, of `nbits` bits numbered as the opcode table numbers them, presented as the next
command (log entries 2 and 11); unchanged where the number is no 36-bit word. -/
def State.withFetchWord (s : State) (nbits w : Nat) : State :=
  match tableWord nbits w with
  | some c => presentWord c s
  | none => s

end Sys2Proof.Machine
end

