-- ==== Sys2Proof/Algebra.lean ====
section
/-! DEFINITION. Numbers read as polynomials over GF(2) (spec 41_compute.md R111; 00_scope.md R8: bit `i` is the
coefficient of x^i). Statements use these; the machine does not. -/

namespace Sys2Proof.Algebra

open Polynomial

/-- The polynomial whose coefficient of x^i is bit `i` of `n`, for the `k` low bits. -/
noncomputable def bitsPoly (n k : Nat) : (ZMod 2)[X] :=
  ∑ i ∈ Finset.range k, if n.testBit i then (X : (ZMod 2)[X]) ^ i else 0

/-- A register value as a polynomial: `v(x)` (R111). -/
noncomputable def toPoly {w : Nat} (v : BitVec w) : (ZMod 2)[X] := bitsPoly v.toNat w

/-- The message as one number, `M = y_0*2^(8(n-1)) + ... + y_{n-1}` (R111). -/
def messageNumber (bytes : List Byte) : Nat := bytes.foldl (fun m y => m * 256 + y.toNat) 0

/-- The message as a polynomial, `M(x)` (R111). -/
noncomputable def messagePoly (bytes : List Byte) : (ZMod 2)[X] := bitsPoly (messageNumber bytes) (8 * bytes.length)

/-- An incoming bit as a constant polynomial. -/
noncomputable def bitPoly (b : Bool) : (ZMod 2)[X] := if b then 1 else 0

end Sys2Proof.Algebra
end

