-- ==== Sys2Proof/Machine/Assembler.lean ====
section
/-! DEFINITION. The text form of commands and responses (spec 30_encoding.md R68, R71) and the pseudo-instructions
(R69). A line is a list of characters. What R68 does not say of spaces, quotes and the case of hexadecimal digits is in
log entry 13. -/

namespace Sys2Proof.Machine

/-- `INIT` is `LDREG 0` (R69). -/
def expandInit : List Instr := [.ldreg 0#32]

/-- `FILL a, n, y`: the `n` commands `WRBUF a+j, y`, j = 0 .. n-1 (R69). -/
def expandFill (a n : Nat) (y : Byte) : List Instr := (List.range n).map fun j => .wrbuf (a + j) y

/-- `WRSTR a, "text"`: `WRBUF a+j, code(t_j)` for every character, in order (R69). -/
def expandWrstr (a : Nat) (codes : List Byte) : List Instr :=
  match codes with
  | [] => []
  | y :: ys => .wrbuf a y :: expandWrstr (a + 1) ys

/-- The pieces of a line. -/
inductive Token where
  | word (cs : List Char)
  | comma
  /-- One ASCII character in single quotes. -/
  | quoted (c : Char)
  /-- A text in double quotes. -/
  | text (cs : List Char)
  deriving DecidableEq, Repr

def apostrophe : Char := Char.ofNat 0x27
def doubleQuote : Char := Char.ofNat 0x22

def isBlank (c : Char) : Bool := c.toNat == 0x20 || c.toNat == 0x09
def isAscii (c : Char) : Bool := c.toNat < 128

/-- The word gathered so far (last character first), as a token. -/
def flushWord (acc : List Char) : List Token := if acc.isEmpty then [] else [.word acc.reverse]

/-- Cut a line into tokens; a `;` outside quotes starts a comment (R68). `open?` is the text gathered since an opening
double quote, `acc` the word gathered so far, both last character first. None on a quote that is not closed and on a
quoted character that is not ASCII. -/
def lexLine (open? : Option (List Char)) (acc : List Char) : List Char → Option (List Token)
  | [] => if open?.isSome then none else some (flushWord acc)
  | c :: rest =>
    match open? with
    | some t =>
      if c = doubleQuote then (lexLine none [] rest).map (.text t.reverse :: ·)
      else if isAscii c then lexLine (some (c :: t)) [] rest
      else none
    | none =>
      if c = ';' then some (flushWord acc)
      else if isBlank c then (lexLine none [] rest).map (flushWord acc ++ ·)
      else if c = ',' then (lexLine none [] rest).map (flushWord acc ++ .comma :: ·)
      else if c = doubleQuote then (lexLine (some []) [] rest).map (flushWord acc ++ ·)
      else if c = apostrophe then
        match rest with
        | x :: q :: rest' =>
          if q = apostrophe && isAscii x then (lexLine none [] rest').map (flushWord acc ++ .quoted x :: ·) else none
        | _ => none
      else lexLine none (c :: acc) rest

/-- The value of a digit; hexadecimal digits in either case. -/
def digitValue (c : Char) : Option Nat :=
  if '0' ≤ c && c ≤ '9' then some (c.toNat - 0x30)
  else if 'A' ≤ c && c ≤ 'F' then some (c.toNat - 0x41 + 10)
  else if 'a' ≤ c && c ≤ 'f' then some (c.toNat - 0x61 + 10)
  else none

def readDigits (base acc : Nat) : List Char → Option Nat
  | [] => some acc
  | c :: cs =>
    match digitValue c with
    | some d => if d < base then readDigits base (acc * base + d) cs else none
    | none => none

/-- A number: decimal, or hexadecimal with the prefix `0x` (R68). -/
def readNumber (cs : List Char) : Option Nat :=
  match cs with
  | [] => none
  | '0' :: 'x' :: ds => if ds.isEmpty then none else readDigits 16 0 ds
  | ds => readDigits 10 0 ds

def numberOperand (t : Token) : Option Nat :=
  match t with
  | .word cs => readNumber cs
  | .comma | .quoted _ | .text _ => none

/-- A `W`-bit operand; above 0xFFFFFFFF it is an error (R68). -/
def immOperand (t : Token) : Option Word :=
  (numberOperand t).bind fun n => if n < 2 ^ 32 then some (BitVec.ofNat 32 n) else none

/-- A byte operand: a number up to 255, or one ASCII character in single quotes (R68). -/
def byteOperand (t : Token) : Option Byte :=
  match t with
  | .quoted c => some (BitVec.ofNat 8 c.toNat)
  | .word cs => (readNumber cs).bind fun n => if n < 2 ^ 8 then some (BitVec.ofNat 8 n) else none
  | .comma | .text _ => none

/-- The codes of a text of ASCII characters (R69). -/
def textOperand (t : Token) : Option (List Byte) :=
  match t with
  | .text cs => some (cs.map fun c => BitVec.ofNat 8 c.toNat)
  | .comma | .quoted _ | .word _ => none

/-- Operands separated by commas (R68): exactly one comma between two operands, none before the first or after the
last. -/
def splitOperands : List Token → Option (List Token)
  | [] => some []
  | [t] => if t = .comma then none else some [t]
  | t :: c :: rest =>
    if t = .comma || c ≠ .comma || rest.isEmpty then none else (splitOperands rest).map (t :: ·)

/-- The mnemonics and pseudo-instructions a line can begin with (R63, R68, R69). -/
def keyword (s : String) : List Char := s.toList

/-- The commands of a line that begins with the word `m` and has these operands, in the order of R63's operands column;
a pseudo-instruction gives its expansion (R69). None where the line is an assembly error. DESIGN CHOICE (log entry 13):
R69 bounds only the addresses of a FILL, and a FILL with n = 0 or a WRSTR with an empty text is accepted at every
address, above 65535 too, and gives no word. -/
def commandsOf (m : List Char) (ops : List Token) : Option (List Instr) :=
  if m = keyword "LDPOLY" then
    match ops with
    | [v] => (immOperand v).map fun imm => [.ldpoly imm]
    | _ => none
  else if m = keyword "LDREG" then
    match ops with
    | [v] => (immOperand v).map fun imm => [.ldreg imm]
    | _ => none
  else if m = keyword "COMPUTE" then
    match ops with
    | [s, n] => (numberOperand s).bind fun start => (numberOperand n).map fun len => [.compute start len]
    | _ => none
  else if m = keyword "RDCRC" then if ops.isEmpty then some [.rdcrc] else none
  else if m = keyword "RDREG" then if ops.isEmpty then some [.rdreg] else none
  else if m = keyword "RDPOLY" then if ops.isEmpty then some [.rdpoly] else none
  else if m = keyword "RDSTAT" then if ops.isEmpty then some [.rdstat] else none
  else if m = keyword "WRBUF" then
    match ops with
    | [a, y] => (numberOperand a).bind fun addr => (byteOperand y).map fun data => [.wrbuf addr data]
    | _ => none
  else if m = keyword "RDBUF" then
    match ops with
    | [a] => (numberOperand a).map fun addr => [.rdbuf addr]
    | _ => none
  else if m = keyword "INIT" then if ops.isEmpty then some expandInit else none
  else if m = keyword "FILL" then
    match ops with
    | [a, n, y] =>
      (numberOperand a).bind fun addr => (numberOperand n).bind fun count => (byteOperand y).bind fun data =>
        if addr + count ≤ 65536 || count = 0 then some (expandFill addr count data) else none
    | _ => none
  else if m = keyword "WRSTR" then
    match ops with
    | [a, t] => (numberOperand a).bind fun addr => (textOperand t).map fun codes => expandWrstr addr codes
    | _ => none
  else none

/-- The words of a program's commands, each operand fitting its field; else none (R68). -/
def assembleAll : List Instr → Option (List CmdWord)
  | [] => some []
  | i :: rest => (assembleInstr i).bind fun c => (assembleAll rest).map (c :: ·)

/-- Assemble one line (R68): the words it stands for, in order; no word for an empty or comment line; none on an
assembly error. -/
def assembleLine (line : List Char) : Option (List CmdWord) :=
  match lexLine none [] line with
  | some [] => some []
  | some (.word m :: rest) => (splitOperands rest).bind fun ops => (commandsOf m ops).bind assembleAll
  | some _ => none
  | none => none

/-- A hexadecimal digit as words are written, in capitals (R68). -/
def hexChar (n : Nat) : Char := if n < 10 then Char.ofNat (0x30 + n) else Char.ofNat (0x41 + (n - 10))

/-- The `n` low hexadecimal digits of a number, most significant first. -/
def hexChars (v : Nat) : Nat → List Char
  | 0 => []
  | n + 1 => hexChar (v / 16 ^ n % 16) :: hexChars v n

/-- A command or response word in nine hexadecimal digits (R68, R71). -/
def wordText (c : BitVec 36) : List Char := hexChars c.toNat 9

/-- The name of a fault's status (R66, R71). -/
def Fault.name (f : Fault) : String :=
  match f with
  | .invalidPolynomial => "InvalidPolynomial"
  | .insufficientData => "InsufficientData"
  | .illegalCommand => "IllegalCommand"

/-- The text form of a response: `OK(v)`, the value in eight hexadecimal digits, or the name of its status (R71). -/
def Response.text (r : Response) : List Char :=
  match r with
  | .ok v => "OK(0x".toList ++ hexChars v.toNat 8 ++ [')']
  | .fault f => f.name.toList

end Sys2Proof.Machine
end

