-- ==== Sys2Proof/Machine/Parametric.lean ====
section
/-! DEFINITION. The block with its parameters as an argument (spec 00_scope.md R5). `exec` and `step` are this machine
at `Config.thisHardware`. -/

namespace Sys2Proof.Machine

/-- The commands on an instance with the parameters `P`. Only COMPUTE, WRBUF and RDBUF look at one, `BUF_LEN`. -/
def execWith (P : Config.Params) (i : Instr) (s : State) : Host.Outcome State Fault Refusal :=
  match i with
  | .ldpoly imm => execLdpoly imm s
  | .ldreg imm => execLdreg imm s
  | .compute start len => execComputeWith P start len s
  | .rdcrc => execRdcrc s
  | .rdreg => execRdreg s
  | .rdpoly => execRdpoly s
  | .rdstat => execRdstat s
  | .wrbuf addr data => execWrbufWith P addr data s
  | .rdbuf addr => execRdbufWith P addr s

/-- One step of an instance with the parameters `P` (R6). -/
def stepWith (P : Config.Params) (s : State) : Host.Outcome State Fault Refusal := takeStep (execWith P) s

end Sys2Proof.Machine
end

