-- ==== Sys2Proof/Machine/Driver.lean ====
section
/-! DEFINITION. The Mode Driver, the documented host (spec 42_host_sequences.md R120 to R133): a program of commands
that reads each response before it decides the next step. It adds no state and no behaviour to the block (R120). Its
procedures take the parameters `P` of 00_scope.md R5, the block's and the host's; the names without `With` are those of
this hardware. -/

namespace Sys2Proof.Machine

/-- How a host procedure ends. -/
inductive DriverOutcome (α : Type) where
  /-- It ran to its end, with this result and the block in this state. -/
  | done (a : α) (s : State)
  /-- It stopped with this error: a fault the block answered (R157), or the host's own InsufficientData (R128). -/
  | aborted (f : Fault) (s : State)
  /-- The model gave no meaning to one of its commands (20_memory.md R54). -/
  | refused (r : Refusal)
  /-- A command got no response; the block never does this (30_encoding.md R65). -/
  | noAnswer
  deriving DecidableEq, Repr

/-- Go on with the result of a procedure that ran to its end; stop where it stopped. -/
def DriverOutcome.andThen {α β : Type} (o : DriverOutcome α) (k : α → State → DriverOutcome β) : DriverOutcome β :=
  match o with
  | .done a s => k a s
  | .aborted f s => .aborted f s
  | .refused r => .refused r
  | .noAnswer => .noAnswer

/-- Issue one command and read its response: its data, or stop with its fault (R123, R157). -/
def issue (P : Config.Params) (i : Instr) (s : State) : DriverOutcome Word :=
  match stepWith P (presentWord (encode i) s) with
  | .next t =>
    match t.rsps.getLast? with
    | some (.ok v) => .done v t
    | some (.fault f) => .aborted f t
    | none => .noAnswer
  | .fault f => .aborted f s
  | .refused r => .refused r

/-- `ceil(L / CHUNK_W)`, the number of chunks (R121). -/
def chunkCount (P : Config.Params) (len : Nat) : Nat := (len + (P.chunkW - 1)) / P.chunkW

/-- The `j`-th chunk, `(start_j, len_j)`: the last one cut to fit (R121). -/
def chunkAt (P : Config.Params) (len j : Nat) : Nat × Nat := (j * P.chunkW, min P.chunkW (len - j * P.chunkW))

/-- `chunks(L)`, the chunk boundary sequence of a region of `L` bytes; one empty chunk for an empty region (R121). -/
def chunksWith (P : Config.Params) (len : Nat) : List (Nat × Nat) :=
  if len = 0 then [(0, 0)] else (List.range (chunkCount P len)).map (chunkAt P len)

/-- `chunks(L)` with this hardware's host, `CHUNK_W` = 64 (R121). -/
def chunks (len : Nat) : List (Nat × Nat) := chunksWith Config.thisHardware len

/-- `digit(n)`: the ASCII character `0` to `9` or `a` to `f` (R124). -/
def hexDigit (n : Nat) : Byte := if n < 10 then BitVec.ofNat 8 (0x30 + n) else BitVec.ofNat 8 (0x61 + (n - 10))

/-- `hex8(v)`: eight ASCII characters, most significant digit first, `c_m = digit(v[31-4m : 28-4m])` (R124). -/
def hex8 (v : Word) : List Byte :=
  (List.range Config.trailerLen).map fun m => hexDigit (v.extractLsb' (28 - 4 * m) 4).toNat

/-- `WRBUF a+j, data[j]` for every byte of the data, in order (R123). -/
def writeBytes (P : Config.Params) (a : Nat) (data : List Byte) (s : State) : DriverOutcome Unit :=
  match data with
  | [] => .done () s
  | y :: ys => (issue P (.wrbuf a y) s).andThen fun _ t => writeBytes P (a + 1) ys t

/-- A progress event: a chunk and the drained value its COMPUTE answered (R123, R130). -/
abbrev ProgressEvent := (Nat × Nat) × Word

/-- One COMPUTE for every chunk, in order, each with its progress event; stop at a fault (R123, R157). -/
def runChunks (P : Config.Params) (cs : List (Nat × Nat)) (s : State) : DriverOutcome (List ProgressEvent) :=
  match cs with
  | [] => .done [] s
  | c :: rest =>
    (issue P (.compute c.1 c.2) s).andThen fun v t =>
      (runChunks P rest t).andThen fun events u => .done ((c, v) :: events) u

/-- The steps of `computeRecord` on the block, for a region of any length: LDPOLY, the bytes from address 0 up,
`LDREG 0` (R122), and the COMPUTEs of `chunks(L)` (R123). The result is the progress events, in order. -/
def computeRegion (P : Config.Params) (data : List Byte) (poly : Word) (s : State) :
    DriverOutcome (List ProgressEvent) :=
  (issue P (.ldpoly poly) s).andThen fun _ s1 =>
    (writeBytes P 0 data s1).andThen fun _ s2 =>
      (issue P (.ldreg 0#32) s2).andThen fun _ s3 => runChunks P (chunksWith P data.length) s3

/-- The final CRC: the response of the region's last COMPUTE (R123, R177). -/
def finalCrc (P : Config.Params) (data : List Byte) (poly : Word) (s : State) : DriverOutcome Word :=
  (computeRegion P data poly s).andThen fun events t =>
    match events.getLast? with
    | some e => .done e.2 t
    | none => .noAnswer

/-- The data region of a record: the first `REGION_LEN` bytes of what the host is handed (R123; log entry 12). -/
def dataRegion (P : Config.Params) (data : List Byte) : List Byte := data.take P.regionLen

/-- `computeRecord(dataRegion, polynomial)` (R123): the region and its trailer. Short data is the host's
InsufficientData, with no command issued (R128). -/
def computeRecordWith (P : Config.Params) (data : List Byte) (poly : Word) (s : State) : DriverOutcome (List Byte) :=
  if data.length < P.regionLen then .aborted .insufficientData s
  else (finalCrc P (dataRegion P data) poly s).andThen fun v t => .done (dataRegion P data ++ hex8 v) t

/-- `verifyRecord(dataRegion, storedTrailer, polynomial)` (R125): the same run, then byte equality of the trailers. A
mismatch is a result, not a fault (60_exceptions.md R144). -/
def verifyRecordWith (P : Config.Params) (data stored : List Byte) (poly : Word) (s : State) : DriverOutcome Bool :=
  if data.length < P.regionLen then .aborted .insufficientData s
  else (finalCrc P (dataRegion P data) poly s).andThen fun v t => .done (hex8 v == stored) t

/-- The trailer of a record: the `TRAILER_LEN` bytes after the data region (R127). -/
def recordTrailerWith (P : Config.Params) (record : List Byte) : List Byte :=
  (record.drop P.regionLen).take P.trailerLen

/-- The reference padding of short source data, done by the I/O layer before the driver is called (R129). -/
def padRegionWith (P : Config.Params) (data : List Byte) : List Byte :=
  data ++ List.replicate (P.regionLen - data.length) P.fillByte

/-- `computeRecord` on this hardware: a record of 512 bytes (R123, R127). -/
def computeRecord (data : List Byte) (poly : Word) (s : State) : DriverOutcome (List Byte) :=
  computeRecordWith Config.thisHardware data poly s

/-- `verifyRecord` on this hardware (R125). -/
def verifyRecord (data stored : List Byte) (poly : Word) (s : State) : DriverOutcome Bool :=
  verifyRecordWith Config.thisHardware data stored poly s

/-- The trailer of a record of this hardware: the eight bytes after the data region (R127). -/
def recordTrailer (record : List Byte) : List Byte := recordTrailerWith Config.thisHardware record

/-- The reference padding on this hardware: up to 504 bytes, with the character `.` (R129). -/
def padRegion (data : List Byte) : List Byte := padRegionWith Config.thisHardware data

end Sys2Proof.Machine
end

