-- ==== Sys2Proof/Machine/Instances.lean ====
section
/-! DEFINITION. Several instances of the block (spec 60_exceptions.md R154, 20_memory.md R55): the product of their
machines, with free interleaving and no interaction. An instance has no identifier; its place in the list is the
host's way of naming it. -/

namespace Sys2Proof.Machine

/-- The `k`-th instance makes one step, every other stays; nothing happens where there is no `k`-th instance. The
interleaving is free: any sequence of numbers `k` is one. -/
def stepInstance (k : Nat) (sys : List State) : Host.Outcome (List State) Fault Refusal :=
  match sys[k]? with
  | none => .next sys
  | some s =>
    match step s with
    | .next t => .next (sys.set k t)
    | .fault f => .fault f
    | .refused r => .refused r

/-- A given interleaving of the instances' steps. -/
def runInstances (order : List Nat) (sys : List State) : Host.Outcome (List State) Fault Refusal :=
  match order with
  | [] => .next sys
  | k :: rest =>
    match stepInstance k sys with
    | .next t => runInstances rest t
    | .fault f => .fault f
    | .refused r => .refused r

end Sys2Proof.Machine
end

