-- ==== Sys2Proof/Safety.lean ====
section
/-! DEFINITION. What counts as a safe run, in the terms the statements use. -/

namespace Sys2Proof.Safety

open Sys2Proof.Machine

/-- Every byte of the range has been written since reset (spec 20_memory.md R54; duty 2 of R172). -/
def RangeWritten (s : State) (start len : Nat) : Prop :=
  ∀ k, k < len → s.buf.read (start + k) ≠ none

/-- The list is what the range of BUF holds: `BUF[start], ..., BUF[start+len-1]` (41_compute.md R104). -/
def RangeHolds (s : State) (start : Nat) (bytes : List Byte) : Prop :=
  ∀ k (h : k < bytes.length), s.buf.read (start + k) = some bytes[k]

/-- The state invariant: BUF is in its canonical form, so every address it lists is below `BUF_LEN` (20_memory.md
R40, R47). -/
def Inv (s : State) : Prop := s.buf.wf = true

/-- The range invariant of the remainder: `REG < 2^deg(POLY)` (41_compute.md R109). -/
def RemainderInRange (s : State) : Prop := s.reg.toNat < 2 ^ deg s.poly

/-- The host's boot duties before the first COMPUTE of a record over the range (70_reset_and_hazards.md R172): a
nonzero polynomial, every byte of the range written, REG at the initial value 0. -/
def RecordReady (s : State) (start len : Nat) : Prop :=
  s.poly ≠ 0#32 ∧ start + len ≤ Config.bufLen ∧ RangeWritten s start len ∧ s.reg = 0#32

/-- The two states agree on all of the block's own state (10_state.md R20); the host's streams may differ. -/
def SameBlock (s t : State) : Prop :=
  s.poly = t.poly ∧ s.reg = t.reg ∧ s.crc = t.crc ∧ s.status = t.status ∧ s.buf = t.buf

/-- `s` with its streams left out of sight: the block's own state alone, the host's streams empty. -/
def blockOf (s : State) : State := { s with inputs := [], rsps := [] }

/-- No byte of the buffer reads differently. -/
def BufSame (s t : State) : Prop := ∀ a, t.buf.read a = s.buf.read a

/-- The data of a command's response when its status is OK (30_encoding.md R65), from the state before and after. -/
def okData (i : Instr) (s t : State) : Word :=
  match i with
  | .ldpoly _ | .ldreg _ | .wrbuf _ _ => 0#32
  | .compute _ _ => t.crc
  | .rdcrc => s.crc
  | .rdreg => s.reg
  | .rdpoly => s.poly
  | .rdstat => s.status.word
  | .rdbuf addr => ((s.buf.read addr).map zextByte).getD 0#32

/-- The commands one after the other, each to its end, in the order issued (00_scope.md R6, 20_memory.md R49). -/
def runCommands (cmds : List Instr) (s : State) : Host.Outcome State Fault Refusal :=
  match cmds with
  | [] => .next s
  | i :: rest =>
    match exec i s with
    | .next t => runCommands rest t
    | .fault f => .fault f
    | .refused r => .refused r

/-- What the address `a` holds after one command: the data of a WRBUF to it, else what it held. A WRBUF past the buffer
writes nothing (40_config_access.md R86). -/
def heldAfter (a : Nat) (before : Option Byte) (i : Instr) : Option Byte :=
  match i with
  | .wrbuf b y => if b = a ∧ b < Config.bufLen then some y else before
  | .ldpoly _ | .ldreg _ | .compute _ _ | .rdcrc | .rdreg | .rdpoly | .rdstat | .rdbuf _ => before

/-- What the address holds after the commands: the data of the latest WRBUF to it, else what it held (R49). -/
def latestWrite (a : Nat) (before : Option Byte) (cmds : List Instr) : Option Byte := cmds.foldl (heldAfter a) before

end Sys2Proof.Safety
end

