-- ==== Sys2Proof/Certificates/Slice0/Obligations.lean ====
section
/-! DEFINITION. The statements for the provers. Each docstring names the rule of the spec it formalises.
In all of them `s.inputs` is what the host does next and `s.rsps` what it has been answered: how the model holds the
command port and the responses (log entry 1). A COMPUTE that ended without fault is one after which CRCV is set: a fault
of COMPUTE clears it (R148). -/

open Sys2Proof Sys2Proof.Machine Sys2Proof.Safety Sys2Proof.Algebra

/-! ### Encoding (30_encoding.md) -/

/-- R70: the decode function and the encoder, by the fields of the word as a number, and that each is the inverse of
the other. `op` is the word's top digit, `pay` its low 32 bits. -/
def Obligations.DecodeAndEncodeAreInverse : Prop :=
  (∀ c : CmdWord, ∀ op pay : Nat, c.toNat = op * 2 ^ 32 + pay → pay < 2 ^ 32 →
    decode c =
      if op = 1 then some (.ldpoly (BitVec.ofNat 32 pay))
      else if op = 2 then some (.ldreg (BitVec.ofNat 32 pay))
      else if op = 3 then some (.compute (pay / 65536) (pay % 65536))
      else if op = 4 ∧ pay = 0 then some .rdcrc
      else if op = 5 ∧ pay = 0 then some .rdreg
      else if op = 6 ∧ pay = 0 then some .rdpoly
      else if op = 7 ∧ pay = 0 then some .rdstat
      else if op = 8 ∧ pay / 256 % 256 = 0 then some (.wrbuf (pay / 65536) (BitVec.ofNat 8 pay))
      else if op = 9 ∧ pay % 65536 = 0 then some (.rdbuf (pay / 65536))
      else none) ∧
  (∀ v : Word, (encode (.ldpoly v)).toNat = 1 * 2 ^ 32 + v.toNat ∧ (encode (.ldreg v)).toNat = 2 * 2 ^ 32 + v.toNat) ∧
  (∀ s n : Nat, s < 65536 → n < 65536 → (encode (.compute s n)).toNat = 3 * 2 ^ 32 + s * 65536 + n) ∧
  ((encode .rdcrc).toNat = 4 * 2 ^ 32 ∧ (encode .rdreg).toNat = 5 * 2 ^ 32 ∧
    (encode .rdpoly).toNat = 6 * 2 ^ 32 ∧ (encode .rdstat).toNat = 7 * 2 ^ 32) ∧
  (∀ (a : Nat) (y : Byte), a < 65536 →
    (encode (.wrbuf a y)).toNat = 8 * 2 ^ 32 + a * 65536 + y.toNat ∧
    (encode (.rdbuf a)).toNat = 9 * 2 ^ 32 + a * 65536) ∧
  (∀ i : Instr, i.wellFormed = true → decode (encode i) = some i) ∧
  (∀ (c : CmdWord) (i : Instr), decode c = some i → i.wellFormed = true ∧ encode i = c)

/-- R64 and R143: exactly which words are illegal, and that every illegal word raises IllegalCommand. -/
def Obligations.IllegalWordsRaiseIllegalCommand : Prop :=
  (∀ c : CmdWord, ∀ op pay : Nat, c.toNat = op * 2 ^ 32 + pay → pay < 2 ^ 32 →
    (decode c = none ↔
      op = 0 ∨ 10 ≤ op ∨ (4 ≤ op ∧ op ≤ 7 ∧ pay ≠ 0) ∨ (op = 8 ∧ pay / 256 % 256 ≠ 0) ∨
        (op = 9 ∧ pay % 65536 ≠ 0))) ∧
  (∀ (s : State) (c : CmdWord) (rest : List HostInput), s.inputs = .command c :: rest → decode c = none →
    ∃ t, step s = .next t ∧ t.rsps = s.rsps ++ [.fault .illegalCommand])

/-- The opcode map of R63 is unambiguous and complete: the rows a word selects by its mask and match are exactly one,
the one of the command it decodes to, for a legal word, and none for an illegal word. -/
def Obligations.OneOpcodeRowPerLegalWord : Prop :=
  ∀ c : CmdWord,
    (opcodeMap.filter fun row => row.selects c).map OpcodeRow.mnemonic = ((decode c).map Instr.mnemonic).toList

/-- Words the spec writes out (the examples of R68 and the vectors V-E of 95_test_vectors.md), one per command at
least, decode to the commands the spec says. -/
def Obligations.SampleWordsDecodeAsTheSpecSays : Prop :=
  decode 0x10000A053#36 = some (.ldpoly 0xA053#32) ∧
  decode 0x200001234#36 = some (.ldreg 0x1234#32) ∧
  decode 0x301C00038#36 = some (.compute 448 56) ∧
  decode 0x3FFFFFFFF#36 = some (.compute 65535 65535) ∧
  decode 0x400000000#36 = some .rdcrc ∧
  decode 0x500000000#36 = some .rdreg ∧
  decode 0x600000000#36 = some .rdpoly ∧
  decode 0x700000000#36 = some .rdstat ∧
  decode 0x800050041#36 = some (.wrbuf 5 0x41#8) ∧
  decode 0x801FF00FF#36 = some (.wrbuf 511 0xFF#8) ∧
  decode 0x902580000#36 = some (.rdbuf 600) ∧
  decode 0x000000000#36 = none ∧ decode 0xA00000000#36 = none ∧ decode 0x400000001#36 = none ∧
  decode 0x800050141#36 = none ∧ decode 0x900058000#36 = none

/-- What the assembler produces decodes to the program's commands, and it produces words for exactly the programs whose
every operand fits its field (R68, R69, R70). -/
def Obligations.AssembledWordsDecodeBack : Prop :=
  ∀ cmds : List Instr,
    (∀ words, assembleAll cmds = some words → words.map decode = cmds.map some) ∧
    ((∃ words, assembleAll cmds = some words) ↔ ∀ i ∈ cmds, i.wellFormed = true)

/-- R69: running the expansion of `FILL a, n, y` inside the buffer writes `y` to the `n` bytes from `a` up and to no
other, answers OK `n` times and changes nothing else; and `INIT` is `LDREG 0`. -/
def Obligations.FillWritesItsRange : Prop :=
  expandInit = [.ldreg 0#32] ∧
  ∀ (a n : Nat) (y : Byte) (s : State), a + n ≤ Config.bufLen →
    ∃ t, runCommands (expandFill a n y) s = .next t ∧
      (∀ b, t.buf.read b = if a ≤ b ∧ b < a + n then some y else s.buf.read b) ∧
      t.rsps = s.rsps ++ List.replicate n (.ok 0#32) ∧
      t.poly = s.poly ∧ t.reg = s.reg ∧ t.crc = s.crc ∧ t.status = s.status

/-! ### The step -/

/-- R6, R27, R60: a step takes the host's next input; a command word that decodes runs as `exec` of its command, at the
state without that input. With no input the block waits. A word presented by `withFetchWord` is the next one taken.
(How the streams stand in the state is the model's, log entries 1, 2 and 11.) -/
def Obligations.StepRunsTheDecodedCommand : Prop :=
  (∀ (s : State) (c : CmdWord) (rest : List HostInput) (i : Instr),
    s.inputs = .command c :: rest → decode c = some i → step s = exec i { s with inputs := rest }) ∧
  (∀ s : State, s.inputs = [] → step s = .next s) ∧
  (∀ (s : State) (c : CmdWord) (i : Instr), decode c = some i → step (s.withFetchWord 36 c.toNat) = exec i s) ∧
  (∀ (s : State) (i : Instr), i.wellFormed = true → step (presentWord (encode i) s) = exec i s)

/-- R6, R49: running the step machine over the encoded commands of a list is executing the commands one after the other,
each to its end, in the order issued; what the host has still to do after them is untouched. -/
def Obligations.StreamRunsTheCommandsInOrder : Prop :=
  ∀ (cmds : List Instr) (s : State) (rest : List HostInput), (∀ i ∈ cmds, i.wellFormed = true) →
    s.inputs = cmds.map (fun i => .command (encode i)) ++ rest →
    Host.Core.run core cmds.length s = runCommands cmds { s with inputs := rest }

/-- R65: every command word that is answered takes one input and gives exactly one response, its status in bits 35 to
32 and its data in bits 31 to 0; the data is 0 when the status is not OK, and what the table of R65 says when it is. -/
def Obligations.OneResponsePerCommand : Prop :=
  ∀ (s t : State) (c : CmdWord) (rest : List HostInput), s.inputs = .command c :: rest → step s = .next t →
    t.inputs = rest ∧
    ∃ r : Response, t.rsps = s.rsps ++ [r] ∧
      r.word.toNat = r.st.toNat * 2 ^ 32 + r.dat.toNat ∧
      (r.st ≠ 0#4 → r.dat = 0#32) ∧
      (r.st = 0#4 → ∃ i, decode c = some i ∧ r.dat = okData i s t ∧
        ∀ start bytes, i = .compute start bytes.length → RangeHolds s start bytes →
          r.dat = drain (blockstep s.reg bytes s.poly) s.poly)

/-- R66 and R140: the status of the response says which fault was raised, each raised exactly on its cause: 1 by COMPUTE
with POLY = 0; 2 by a COMPUTE, WRBUF or RDBUF that names a byte at or above `BUF_LEN`; 3 by a word that is no command. No
other status occurs. The fault's sticky bit is then set, and the data is 0. -/
def Obligations.FaultsAreRaisedExactlyOnTheirCause : Prop :=
  ∀ (s t : State) (c : CmdWord) (rest : List HostInput) (r : Response),
    s.inputs = .command c :: rest → step s = .next t → t.rsps = s.rsps ++ [r] →
    (r.st = 1#4 ↔ s.poly = 0#32 ∧ ∃ start len, decode c = some (.compute start len)) ∧
    (r.st = 2#4 ↔
      (s.poly ≠ 0#32 ∧ ∃ start len, decode c = some (.compute start len) ∧ Config.bufLen < start + len) ∨
      (∃ a y, decode c = some (.wrbuf a y) ∧ Config.bufLen ≤ a) ∨
      (∃ a, decode c = some (.rdbuf a) ∧ Config.bufLen ≤ a)) ∧
    (r.st = 3#4 ↔ decode c = none) ∧
    r.st.toNat ≤ 3 ∧ (r.st ≠ 0#4 → r.dat = 0#32) ∧
    (r.st = 1#4 → t.status.epoly = true) ∧ (r.st = 2#4 → t.status.edata = true) ∧
    (r.st = 3#4 → t.status.ecmd = true)

/-! ### The configuration and access commands (40_config_access.md) -/

/-- R80: LDPOLY loads POLY with any value, 0 included, answers OK with data 0 and touches nothing else. -/
def Obligations.LdpolyLoadsThePolynomial : Prop :=
  ∀ (imm : Word) (s : State), ∃ t, exec (.ldpoly imm) s = .next t ∧
    t.poly = imm ∧ t.rsps = s.rsps ++ [.ok 0#32] ∧
    t.reg = s.reg ∧ t.crc = s.crc ∧ t.status = s.status ∧ BufSame s t ∧ t.inputs = s.inputs

/-- R81: LDREG loads REG with any value, answers OK with data 0 and touches nothing else: CRC and CRCV stay. -/
def Obligations.LdregLoadsTheRegister : Prop :=
  ∀ (imm : Word) (s : State), ∃ t, exec (.ldreg imm) s = .next t ∧
    t.reg = imm ∧ t.rsps = s.rsps ++ [.ok 0#32] ∧
    t.poly = s.poly ∧ t.crc = s.crc ∧ t.status = s.status ∧ BufSame s t ∧ t.inputs = s.inputs

/-- R82: RDCRC answers CRC, whatever CRCV is, and changes no state; after reset it answers 0, after a COMPUTE without
fault that COMPUTE's response data, after a faulting COMPUTE what it would have answered before. -/
def Obligations.RdcrcAnswersTheResult : Prop :=
  (∀ s : State, ∃ t, exec .rdcrc s = .next t ∧ t.rsps = s.rsps ++ [.ok s.crc] ∧ SameBlock s t ∧ t.inputs = s.inputs) ∧
  (∃ t, exec .rdcrc State.reset = .next t ∧ t.rsps = [.ok 0#32]) ∧
  (∀ (s t : State) (start len : Nat), exec (.compute start len) s = .next t →
    ∃ u, exec .rdcrc t = .next u ∧
      ((∃ v, t.rsps = s.rsps ++ [.ok v] ∧ u.rsps = t.rsps ++ [.ok v]) ∨
       (∃ f, t.rsps = s.rsps ++ [.fault f] ∧ t.status.crcv = false ∧ u.rsps = t.rsps ++ [.ok s.crc])))

/-- R83: RDREG answers REG and changes no state; after a COMPUTE without fault it is the checkpoint, the remainder
before the drain. -/
def Obligations.RdregAnswersTheCarriedRegister : Prop :=
  (∀ s : State, ∃ t, exec .rdreg s = .next t ∧ t.rsps = s.rsps ++ [.ok s.reg] ∧ SameBlock s t ∧ t.inputs = s.inputs) ∧
  (∀ (s t : State) (start : Nat) (bytes : List Byte), RangeHolds s start bytes →
    exec (.compute start bytes.length) s = .next t → t.status.crcv = true →
    ∃ u, exec .rdreg t = .next u ∧ u.rsps = t.rsps ++ [.ok (blockstep s.reg bytes s.poly)])

/-- R84: RDPOLY answers POLY, also when it is 0, and changes no state: the value of the last LDPOLY, or 0 after
reset. -/
def Obligations.RdpolyAnswersThePolynomial : Prop :=
  (∀ s : State, ∃ t, exec .rdpoly s = .next t ∧ t.rsps = s.rsps ++ [.ok s.poly] ∧ SameBlock s t ∧
    t.inputs = s.inputs) ∧
  (∃ t, exec .rdpoly State.reset = .next t ∧ t.rsps = [.ok 0#32]) ∧
  (∀ (imm : Word) (cmds : List Instr) (s t : State), (∀ i ∈ cmds, ∀ v, i ≠ .ldpoly v) →
    runCommands (.ldpoly imm :: cmds) s = .next t →
    ∃ u, exec .rdpoly t = .next u ∧ u.rsps = t.rsps ++ [.ok imm])

/-- R85: RDSTAT answers the four flags, bit 3 ECMD, bit 2 EDATA, bit 1 EPOLY, bit 0 CRCV, every higher bit 0, and
changes no state, the sticky bits included; after reset the data is 0. -/
def Obligations.RdstatAnswersTheFlags : Prop :=
  (∀ s : State, ∃ t v, exec .rdstat s = .next t ∧ t.rsps = s.rsps ++ [.ok v] ∧ SameBlock s t ∧ t.inputs = s.inputs ∧
    v.toNat = 8 * s.status.ecmd.toNat + 4 * s.status.edata.toNat + 2 * s.status.epoly.toNat + s.status.crcv.toNat ∧
    v.toNat < 16) ∧
  (∃ t, exec .rdstat State.reset = .next t ∧ t.rsps = [.ok 0#32])

/-- R86: WRBUF below `BUF_LEN` writes its byte, and only it, and answers OK with data 0; at or above, it raises
InsufficientData: no byte is written, EDATA is set, every other flag stays. POLY, REG, CRC and CRCV are untouched. -/
def Obligations.WrbufWritesOneByte : Prop :=
  ∀ (a : Nat) (y : Byte) (s : State), ∃ t, exec (.wrbuf a y) s = .next t ∧
    t.poly = s.poly ∧ t.reg = s.reg ∧ t.crc = s.crc ∧ t.status.crcv = s.status.crcv ∧
    t.status.epoly = s.status.epoly ∧ t.status.ecmd = s.status.ecmd ∧ t.inputs = s.inputs ∧
    (a < Config.bufLen →
      (∀ b, t.buf.read b = if b = a then some y else s.buf.read b) ∧
      t.status.edata = s.status.edata ∧ t.rsps = s.rsps ++ [.ok 0#32]) ∧
    (Config.bufLen ≤ a →
      BufSame s t ∧ t.status.edata = true ∧ t.rsps = s.rsps ++ [.fault .insufficientData])

/-- R87: RDBUF of a written byte below `BUF_LEN` answers the byte, zero-extended, and changes no state; at or above
`BUF_LEN` it raises InsufficientData; of a byte nobody has written the model gives no meaning (R54). -/
def Obligations.RdbufReadsOneByte : Prop :=
  ∀ (a : Nat) (s : State),
    (∀ y, a < Config.bufLen → s.buf.read a = some y →
      ∃ t v, exec (.rdbuf a) s = .next t ∧ t.rsps = s.rsps ++ [.ok v] ∧ v.toNat = y.toNat ∧ SameBlock s t ∧
        t.inputs = s.inputs) ∧
    (Config.bufLen ≤ a →
      ∃ t, exec (.rdbuf a) s = .next t ∧ t.rsps = s.rsps ++ [.fault .insufficientData] ∧
        t.status = { s.status with edata := true } ∧ t.poly = s.poly ∧ t.reg = s.reg ∧ t.crc = s.crc ∧ BufSame s t ∧
        t.inputs = s.inputs) ∧
    (a < Config.bufLen → s.buf.read a = none → exec (.rdbuf a) s = .refused (.unwrittenByte a))

/-- R49: after any commands that are all answered, every byte of the buffer holds the data of the latest WRBUF to its
address in command order, or what it held before where there is none. -/
def Obligations.BytesHoldTheLatestWrite : Prop :=
  ∀ (cmds : List Instr) (s t : State), runCommands cmds s = .next t →
    ∀ a, t.buf.read a = latestWrite a (s.buf.read a) cmds

/-- R46: repeating a read command changes no state; WRBUF of the same byte to the same address twice leaves the state
as once; a second COMPUTE over the same bytes continues the division over them a second time. -/
def Obligations.RepeatingACommand : Prop :=
  (∀ (i : Instr) (s t : State) (v : Word),
    (i = .rdcrc ∨ i = .rdreg ∨ i = .rdpoly ∨ i = .rdstat ∨ ∃ a, i = .rdbuf a) →
    exec i s = .next t → t.rsps = s.rsps ++ [.ok v] →
    SameBlock s t ∧ ∃ u, exec i t = .next u ∧ SameBlock s u ∧ u.rsps = t.rsps ++ [.ok v]) ∧
  (∀ (a : Nat) (y : Byte) (s t : State), exec (.wrbuf a y) s = .next t →
    ∃ u, exec (.wrbuf a y) t = .next u ∧ SameBlock t u) ∧
  (∀ (start : Nat) (bytes : List Byte) (s t u : State), RangeHolds s start bytes →
    exec (.compute start bytes.length) s = .next t → exec (.compute start bytes.length) t = .next u →
    t.status.crcv = true → u.reg = blockstep s.reg (bytes ++ bytes) s.poly)

/-! ### The micro-operations (41_compute.md) -/

/-- R100 and R101: for a value other than 0, at every width, the degree is the index of the highest set bit, and the
top mask has exactly that bit, which the value has too. -/
def Obligations.DegreeIsTheHighestSetBit : Prop :=
  ∀ (w : Nat) (p : BitVec w), p ≠ 0#w →
    deg p < w ∧ p.getLsbD (deg p) = true ∧ (∀ j, deg p < j → p.getLsbD j = false) ∧
    (∀ j, (topMask p).getLsbD j = decide (j = deg p)) ∧ p &&& topMask p = topMask p

/-- R102: the bit step as arithmetic on numbers: `t = (2r + b) mod 2^W`, and `t` XOR `p` when bit `deg(p)` of `t` is
set. -/
def Obligations.BitStepAsArithmetic : Prop :=
  ∀ (w : Nat) (r p : BitVec w) (b : Bool), p ≠ 0#w →
    (bitstep r b p).toNat =
      if ((2 * r.toNat + b.toNat) % 2 ^ w).testBit (deg p)
      then (2 * r.toNat + b.toNat) % 2 ^ w ^^^ p.toNat else (2 * r.toNat + b.toNat) % 2 ^ w

/-- R103, R104 and R105: the byte step takes bits 7 down to 0; the block step takes the bytes in order; the drain is
`deg(p)` bit steps with a zero bit. -/
def Obligations.LoopsOfTheDivider : Prop :=
  ∀ (w : Nat) (r p : BitVec w),
    (∀ y : Byte, bytestep r y p =
      bitstep (bitstep (bitstep (bitstep (bitstep (bitstep (bitstep (bitstep r
        (y.getLsbD 7) p) (y.getLsbD 6) p) (y.getLsbD 5) p) (y.getLsbD 4) p)
        (y.getLsbD 3) p) (y.getLsbD 2) p) (y.getLsbD 1) p) (y.getLsbD 0) p) ∧
    blockstep r [] p = r ∧
    (∀ (ys : List Byte) (y : Byte), blockstep r (ys ++ [y]) p = bytestep (blockstep r ys p) y p) ∧
    drain r p = (fun r => bitstep r false p)^[deg p] r

/-- R109: a micro-step keeps the register below `2^deg(p)`; so does a COMPUTE, whose CRC is below it too; and so do any
commands that load no other polynomial and load REG only with 0. -/
def Obligations.RemainderStaysInRange : Prop :=
  (∀ (w : Nat) (r p : BitVec w) (b : Bool), p ≠ 0#w → r.toNat < 2 ^ deg p → (bitstep r b p).toNat < 2 ^ deg p) ∧
  (∀ (s t : State) (start len : Nat), RemainderInRange s → exec (.compute start len) s = .next t →
    t.status.crcv = true → t.reg.toNat < 2 ^ deg s.poly ∧ t.crc.toNat < 2 ^ deg s.poly) ∧
  (∀ (cmds : List Instr) (s t : State), (∀ i ∈ cmds, (∀ v, i ≠ .ldpoly v) ∧ ∀ v, i = .ldreg v → v = 0#32) →
    s.poly ≠ 0#32 → s.reg.toNat < 2 ^ deg s.poly → s.crc.toNat < 2 ^ deg s.poly → runCommands cmds s = .next t →
    t.poly = s.poly ∧ t.reg.toNat < 2 ^ deg s.poly ∧ t.crc.toNat < 2 ^ deg s.poly)

/-- R110: bits at or above position `deg(p)` are never reduced: each micro-step moves them one place up, and they are
lost past bit W-1; with the spec's five examples for W = 32 and POLY = 0xA053. -/
def Obligations.HighBitsAreNeverReduced : Prop :=
  (∀ (w : Nat) (r p : BitVec w) (b : Bool) (j : Nat), deg p ≤ j →
    (bitstep r b p).getLsbD (j + 1) = (decide (j + 1 < w) && r.getLsbD j)) ∧
  drain 0x8000#32 0xA053#32 = 0x40000000#32 ∧ drain 0x00010000#32 0xA053#32 = 0x80000000#32 ∧
  drain 0x80000000#32 0xA053#32 = 0#32 ∧ drain 0xFFFFFFFF#32 0xA053#32 = 0xC0005ABC#32 ∧
  blockstep 0xFFFFFFFF#32 [0#8] 0xA053#32 = 0xFF804194#32 ∧ drain 0xFF804194#32 0xA053#32 = 0x30E3#32

/-- R115: the extreme degrees. For POLY = 1 the bit step is the plain shift and the drain is empty, so CRC equals REG,
and from REG = 0 everything stays 0. For a polynomial of degree W-1 the shift loses nothing from `r < 2^(W-1)`. -/
def Obligations.ExtremeDegrees : Prop :=
  (∀ (r : Word) (b : Bool), bitstep r b 1#32 = r <<< 1) ∧ (∀ r : Word, drain r 1#32 = r) ∧
  (∀ (s t : State) (start len : Nat), s.poly = 1#32 → exec (.compute start len) s = .next t →
    t.status.crcv = true → t.crc = t.reg ∧ (s.reg = 0#32 → t.reg = 0#32)) ∧
  (∀ (p r : Word) (b : Bool), p.getLsbD 31 = true → r.toNat < 2 ^ 31 →
    deg p = 31 ∧ topMask p = 0x80000000#32 ∧ (shiftIn r b).toNat = 2 * r.toNat + b.toNat)

/-- R111: the divider is polynomial division over GF(2): for `r < 2^deg(p)` the bit step, the block step and the drain
are remainders modulo `p(x)`, at every width; and so REG and CRC after a COMPUTE without fault. -/
def Obligations.DividerIsPolynomialRemainder : Prop :=
  (∀ (w : Nat) (r p : BitVec w), p ≠ 0#w → r.toNat < 2 ^ deg p →
    (∀ b : Bool, toPoly (bitstep r b p) = (toPoly r * Polynomial.X + bitPoly b) % toPoly p) ∧
    (∀ bytes : List Byte, toPoly (blockstep r bytes p) =
      (toPoly r * Polynomial.X ^ (8 * bytes.length) + messagePoly bytes) % toPoly p) ∧
    toPoly (drain r p) = (toPoly r * Polynomial.X ^ deg p) % toPoly p) ∧
  (∀ (s t : State) (start : Nat) (bytes : List Byte), RemainderInRange s → RangeHolds s start bytes →
    exec (.compute start bytes.length) s = .next t → t.status.crcv = true →
    toPoly t.reg = (toPoly s.reg * Polynomial.X ^ (8 * bytes.length) + messagePoly bytes) % toPoly s.poly ∧
    toPoly t.crc = ((toPoly s.reg * Polynomial.X ^ (8 * bytes.length) + messagePoly bytes) *
      Polynomial.X ^ deg s.poly) % toPoly s.poly)

/-! ### COMPUTE (41_compute.md) -/

/-- R106: a COMPUTE whose polynomial is not 0 and whose range stays in the buffer, over written bytes, puts the
remainder before the drain into REG and the drained value into CRC and into its OK response, sets CRCV, and changes
nothing else. With POLY = 0 it raises InvalidPolynomial, else with a range past the buffer InsufficientData, each leaving
REG, CRC, POLY and BUF unchanged and CRCV clear. Over an unwritten byte, its checks passed, the model gives it no meaning
(R54); what the refusal names is the model's own and stands in RefusalNamesTheLowestUnwrittenByte. -/
def Obligations.ComputeRunsTheDivider : Prop :=
  (∀ (s : State) (start : Nat) (bytes : List Byte), s.poly ≠ 0#32 → start + bytes.length ≤ Config.bufLen →
    RangeHolds s start bytes →
    ∃ t, exec (.compute start bytes.length) s = .next t ∧
      t.reg = blockstep s.reg bytes s.poly ∧ t.crc = drain t.reg s.poly ∧ t.rsps = s.rsps ++ [.ok t.crc] ∧
      t.status = { s.status with crcv := true } ∧ t.poly = s.poly ∧ BufSame s t ∧ t.inputs = s.inputs) ∧
  (∀ (s : State) (start len : Nat), (s.poly = 0#32 ∨ Config.bufLen < start + len) →
    ∃ t f, exec (.compute start len) s = .next t ∧ t.rsps = s.rsps ++ [.fault f] ∧
      (f = .invalidPolynomial ↔ s.poly = 0#32) ∧ (f = .insufficientData ↔ s.poly ≠ 0#32) ∧
      t.status.crcv = false ∧ (∀ g, t.status.sticky g = (s.status.sticky g || decide (g = f))) ∧
      t.reg = s.reg ∧ t.crc = s.crc ∧ t.poly = s.poly ∧ BufSame s t ∧ t.inputs = s.inputs) ∧
  (∀ (s : State) (start len : Nat), s.poly ≠ 0#32 → start + len ≤ Config.bufLen → ¬ RangeWritten s start len →
    ∃ r, exec (.compute start len) s = .refused r)

/-- R107: the block step over joined lists is the block step over one and then the other, at every width and from every
register; so two COMPUTEs without fault over adjacent ranges leave the REG and the CRC of one COMPUTE over both. The
bytes need not be adjacent: what matters is the sequence of bytes consumed. -/
def Obligations.ComputeChains : Prop :=
  (∀ (w : Nat) (r p : BitVec w) (xs ys : List Byte), blockstep r (xs ++ ys) p = blockstep (blockstep r xs p) ys p) ∧
  (∀ (s t u : State) (start n1 n2 : Nat), exec (.compute start n1) s = .next t → t.status.crcv = true →
    exec (.compute (start + n1) n2) t = .next u → u.status.crcv = true →
    ∃ v, exec (.compute start (n1 + n2)) s = .next v ∧ v.reg = u.reg ∧ v.crc = u.crc ∧ v.status = u.status) ∧
  (∀ (s t s' u v : State) (a b c : Nat) (xs ys : List Byte), RangeHolds s a xs → RangeHolds s' b ys →
    RangeHolds v c (xs ++ ys) → s'.poly = s.poly → s'.reg = t.reg → v.poly = s.poly → v.reg = s.reg →
    c + (xs ++ ys).length ≤ Config.bufLen →
    exec (.compute a xs.length) s = .next t → t.status.crcv = true →
    exec (.compute b ys.length) s' = .next u → u.status.crcv = true →
    ∃ z, exec (.compute c (xs ++ ys).length) v = .next z ∧ z.reg = u.reg ∧ z.crc = u.crc)

/-- R108: a zero-length COMPUTE from `start <= BUF_LEN` reads no byte, keeps REG and answers the drain of REG, whatever
the buffer holds; the two checks still apply; with the spec's example. -/
def Obligations.ZeroLengthComputeDrains : Prop :=
  (∀ (s : State) (start : Nat), s.poly ≠ 0#32 → start ≤ Config.bufLen →
    ∃ t, exec (.compute start 0) s = .next t ∧ t.reg = s.reg ∧ t.crc = drain s.reg s.poly ∧
      t.status.crcv = true ∧ t.rsps = s.rsps ++ [.ok (drain s.reg s.poly)]) ∧
  (∀ (s : State) (start : Nat), s.poly = 0#32 →
    ∃ t, exec (.compute start 0) s = .next t ∧ t.rsps = s.rsps ++ [.fault .invalidPolynomial]) ∧
  (∀ (s : State) (start : Nat), s.poly ≠ 0#32 → Config.bufLen < start →
    ∃ t, exec (.compute start 0) s = .next t ∧ t.rsps = s.rsps ++ [.fault .insufficientData]) ∧
  drain 0x1234#32 0xA053#32 = 0x7732#32

/-- R112: a COMPUTE without fault is exactly `8*len + deg(POLY)` micro-steps, one bit step for each of its incoming
bits in order, at most 4127 of them, and then it ends; a fault and every other command perform none. -/
def Obligations.ComputeIsItsMicroSteps : Prop :=
  (∀ (s t : State) (start : Nat) (bytes : List Byte), RangeHolds s start bytes →
    exec (.compute start bytes.length) s = .next t → t.status.crcv = true →
    t.crc = (microInputs bytes s.poly).foldl (fun r b => bitstep r b s.poly) s.reg ∧
    t.reg = ((microInputs bytes s.poly).take (8 * bytes.length)).foldl (fun r b => bitstep r b s.poly) s.reg ∧
    (microInputs bytes s.poly).length = microsteps (.compute start bytes.length) s) ∧
  (∀ (s t : State) (i : Instr), exec i s = .next t →
    (∀ start len, i = .compute start len → t.status.crcv = true → microsteps i s = 8 * len + deg s.poly) ∧
    microsteps i s ≤ 4127 ∧
    ((∃ f, t.rsps = s.rsps ++ [.fault f]) ∨ i.isCompute = false → microsteps i s = 0))

/-- R172: a host that has loaded a nonzero polynomial, written the range and set REG to 0 gets the record's CRC from
COMPUTE; after reset, before any LDPOLY, every COMPUTE raises InvalidPolynomial, whatever other commands came first. -/
def Obligations.ReadyBlockComputesTheCrc : Prop :=
  (∀ (s : State) (start len : Nat), RecordReady s start len →
    ∃ t bytes, exec (.compute start len) s = .next t ∧ bytes.length = len ∧ RangeHolds s start bytes ∧
      t.rsps = s.rsps ++ [.ok (drain (blockstep 0#32 bytes s.poly) s.poly)]) ∧
  (∀ (cmds : List Instr) (s : State) (start len : Nat), (∀ i ∈ cmds, ∀ v, i ≠ .ldpoly v) →
    runCommands cmds State.reset = .next s →
    ∃ t, exec (.compute start len) s = .next t ∧ t.rsps = s.rsps ++ [.fault .invalidPolynomial] ∧
      t.status.epoly = true)

/-- R173: a division interrupted between two blocks and resumed by loading the saved REG gives the same REG and CRC as
if nothing had come between, whatever commands came, of another record too, that load no polynomial and write no byte of
the range. -/
def Obligations.SavedRegisterResumesTheDivision : Prop :=
  ∀ (cmds : List Instr) (s t u : State) (start len : Nat),
    (∀ i ∈ cmds, (∀ v, i ≠ .ldpoly v) ∧ ∀ a y, i = .wrbuf a y → a < start ∨ start + len ≤ a) →
    runCommands (cmds ++ [.ldreg s.reg]) s = .next t → exec (.compute start len) s = .next u →
    ∃ v, exec (.compute start len) t = .next v ∧ v.reg = u.reg ∧ (u.status.crcv = true → v.crc = u.crc) ∧
      v.status.crcv = u.status.crcv

/-! ### Faults, refusals, flags, frames (60_exceptions.md, 10_state.md, 20_memory.md) -/

/-- R148: the effect of a fault, whichever command raised it: POLY, REG, CRC and BUF unchanged; the fault's sticky bit
set and no other; CRCV cleared if the command is COMPUTE, else unchanged; response with the fault's code and data 0. -/
def Obligations.FaultChangesOnlyFlags : Prop :=
  ∀ (s t : State) (c : CmdWord) (rest : List HostInput) (f : Fault),
    s.inputs = .command c :: rest → step s = .next t → t.rsps = s.rsps ++ [.fault f] →
    t.poly = s.poly ∧ t.reg = s.reg ∧ t.crc = s.crc ∧ BufSame s t ∧
    t.status.epoly = (s.status.epoly || decide (f = .invalidPolynomial)) ∧
    t.status.edata = (s.status.edata || decide (f = .insufficientData)) ∧
    t.status.ecmd = (s.status.ecmd || decide (f = .illegalCommand)) ∧
    t.status.crcv = (s.status.crcv && !((decode c).any Instr.isCompute)) ∧
    (Response.fault f).word.toNat = f.code.toNat * 2 ^ 32 ∧ t.inputs = rest

/-- R147: decode comes first; then, for COMPUTE, the polynomial check; then the range check. A COMPUTE with both faults
reports InvalidPolynomial and sets only EPOLY. The only fault of a command other than COMPUTE is InsufficientData. -/
def Obligations.FaultPriority : Prop :=
  (∀ (s : State) (c : CmdWord) (rest : List HostInput), s.inputs = .command c :: rest → decode c = none →
    ∃ t, step s = .next t ∧ t.rsps = s.rsps ++ [.fault .illegalCommand] ∧
      t.status = { s.status with ecmd := true }) ∧
  (∀ (s : State) (start len : Nat), s.poly = 0#32 →
    ∃ t, exec (.compute start len) s = .next t ∧ t.rsps = s.rsps ++ [.fault .invalidPolynomial] ∧
      t.status = { s.status with epoly := true, crcv := false }) ∧
  (∀ (s : State) (start len : Nat), s.poly ≠ 0#32 → Config.bufLen < start + len →
    ∃ t, exec (.compute start len) s = .next t ∧ t.rsps = s.rsps ++ [.fault .insufficientData] ∧
      t.status = { s.status with edata := true, crcv := false }) ∧
  (∀ (i : Instr) (s t : State) (f : Fault), i.isCompute = false → exec i s = .next t →
    t.rsps = s.rsps ++ [.fault f] → f = .insufficientData)

/-- R54: the model refuses exactly an RDBUF of an unwritten byte and a COMPUTE, its fault checks passed, whose range
holds one; so a zero-length COMPUTE is never refused. Reset makes every byte unwritten. No step stops in any other way
(R158; that a fault of the block is a next state and no stop is the model's reading, DEDUCED, log entry 6). -/
def Obligations.OnlyUnwrittenBytesAreRefused : Prop :=
  (∀ (i : Instr) (s : State), (∃ r, exec i s = .refused r) ↔
    (∃ a, i = .rdbuf a ∧ a < Config.bufLen ∧ s.buf.read a = none) ∨
    (∃ start len, i = .compute start len ∧ s.poly ≠ 0#32 ∧ start + len ≤ Config.bufLen ∧
      ¬ RangeWritten s start len)) ∧
  (∀ (s : State) (start : Nat), ∃ t, exec (.compute start 0) s = .next t) ∧
  (∀ (s t : State) (rest : List HostInput), s.inputs = .reset :: rest → step s = .next t →
    ∀ a, t.buf.read a = none) ∧
  (∀ (s : State) (f : Fault), step s ≠ .fault f) ∧
  (∀ (s : State) (r : Refusal), step s = .refused r → ∃ a, r = .unwrittenByte a ∧ a < Config.bufLen ∧
    s.buf.read a = none)

/-- R24: the flags. No step but the reset input clears a sticky bit, and one is set exactly by a command that raises its
fault; CRCV is set by a COMPUTE without fault, cleared by one that faults, and left by every other command; reset clears
all four. As read, bit 0 is CRCV, bit 1 EPOLY, bit 2 EDATA, bit 3 ECMD, every higher bit 0. -/
def Obligations.StickyBitsAndCrcv : Prop :=
  (∀ (s t : State) (f : Fault), step s = .next t → s.inputs.head? ≠ some .reset →
    (∀ c, s.inputs.head? ≠ some (.resetDuring c)) →
    (t.status.sticky f = true ↔ s.status.sticky f = true ∨ t.rsps = s.rsps ++ [.fault f])) ∧
  (∀ (i : Instr) (s t : State), exec i s = .next t →
    (i.isCompute = true → (t.status.crcv = true ↔ ∃ v, t.rsps = s.rsps ++ [.ok v])) ∧
    (i.isCompute = false → t.status.crcv = s.status.crcv)) ∧
  (∀ (s t : State), (s.inputs.head? = some .reset ∨ ∃ c, s.inputs.head? = some (.resetDuring c)) → step s = .next t →
    t.status = ⟨false, false, false, false⟩) ∧
  (∀ t : Status,
    t.word.toNat = t.crcv.toNat + 2 * t.epoly.toNat + 4 * t.edata.toNat + 8 * t.ecmd.toNat)

/-- R31, R32: which command writes which state. POLY changes only by LDPOLY, REG only by LDREG and COMPUTE, CRC only by
COMPUTE, BUF only by WRBUF and there in one byte, CRCV only by COMPUTE, a sticky bit only by a command answered with its
fault; no command writes what is not its own (no aliasing). -/
def Obligations.OnlyItsOwnCommandWritesAState : Prop :=
  ∀ (i : Instr) (s t : State), exec i s = .next t →
    (t.poly ≠ s.poly → i = .ldpoly t.poly) ∧
    (t.reg ≠ s.reg → i = .ldreg t.reg ∨ (i.isCompute = true ∧ t.status.crcv = true)) ∧
    (t.crc ≠ s.crc → i.isCompute = true ∧ t.status.crcv = true) ∧
    (∀ a, t.buf.read a ≠ s.buf.read a → ∃ y, i = .wrbuf a y ∧ t.buf.read a = some y) ∧
    (t.status.crcv ≠ s.status.crcv → i.isCompute = true) ∧
    (∀ f, t.status.sticky f ≠ s.status.sticky f → t.rsps = s.rsps ++ [.fault f])

/-- R113: the response and the next state of the block are functions of the block's state and the command alone: two
states that agree on the block, whatever the host has still to do and has been answered, give the same response, the
same next block, and the same refusals. -/
def Obligations.BlockStateAloneDecides : Prop :=
  ∀ (i : Instr) (s s' : State), SameBlock s s' →
    (∀ t, exec i s = .next t → ∃ t' r, exec i s' = .next t' ∧ SameBlock t t' ∧
      t.rsps = s.rsps ++ [r] ∧ t'.rsps = s'.rsps ++ [r]) ∧
    (∀ x, exec i s = .refused x → exec i s' = .refused x)

/-- The canonical form of BUF (the model's, log entry 4; addresses below `BUF_LEN`, R40, R47) is kept by every step,
from every state that has it. -/
def Obligations.BufferStaysCanonical : Prop := ∀ s t : State, Inv s → step s = .next t → Inv t

/-- The canonical form of BUF holds right after reset. -/
def Obligations.ResetBufferIsCanonical : Prop := Inv State.reset

/-- In the canonical form equal contents are equal data: two buffers in it that read alike at every address are the same
list (log entry 4), and no address at or above `BUF_LEN` holds a byte (R47). -/
def Obligations.CanonicalBuffersReadingAlikeAreEqual : Prop :=
  (∀ m m' : Memory, m.wf = true → m'.wf = true → (∀ a, m.read a = m'.read a) → m = m') ∧
  (∀ (m : Memory) (a : Nat), m.wf = true → Config.bufLen ≤ a → m.read a = none)

/-- R30, R170, R171: the reset input puts POLY, REG, CRC and STATUS to 0 from any state and leaves every byte unwritten
for the model, and gives no response; a command cut short by reset has no effect beyond the reset and no response; the
state after reset is R30's. -/
def Obligations.ResetPutsTheResetState : Prop :=
  (∀ (s : State) (x : HostInput) (rest : List HostInput), s.inputs = x :: rest →
    (x = .reset ∨ ∃ c, x = .resetDuring c) →
    ∃ t, step s = .next t ∧ SameBlock State.reset t ∧ t.rsps = s.rsps ∧ t.inputs = rest) ∧
  State.reset.poly = 0#32 ∧ State.reset.reg = 0#32 ∧ State.reset.crc = 0#32 ∧ State.reset.status.word = 0#32 ∧
  (∀ a, State.reset.buf.read a = none)

/-- R154, R55: instances do not interact: a step of one leaves every other as it was, and steps of two different
instances give the same system in either order. -/
def Obligations.InstancesDoNotInteract : Prop :=
  (∀ (k : Nat) (sys sys' : List State), stepInstance k sys = .next sys' →
    sys'.length = sys.length ∧ (∀ j, j ≠ k → sys'[j]? = sys[j]?) ∧
    (∀ s, sys[k]? = some s → ∃ t, step s = .next t ∧ sys'[k]? = some t)) ∧
  (∀ (j k : Nat) (sys sys' : List State), j ≠ k → runInstances [j, k] sys = .next sys' →
    runInstances [k, j] sys = .next sys')

/-! ### The host's sequences (42_host_sequences.md) -/

/-- R121: the chunks of a region of `L` bytes are consecutive, do not overlap and cover 0 to `L-1` exactly, all of the
nominal width but possibly the last, none empty, for every nominal width; `chunks(0)` is one empty chunk; and the chunks
of this hardware's reference region. -/
def Obligations.ChunksPartitionTheRegion : Prop :=
  (∀ P : Config.Params, chunksWith P 0 = [(0, 0)]) ∧
  (∀ (P : Config.Params) (len : Nat), 1 ≤ P.chunkW →
    (chunksWith P len).flatMap (fun c => (List.range c.2).map (c.1 + ·)) = List.range len) ∧
  (∀ (P : Config.Params) (len : Nat), 1 ≤ P.chunkW → 0 < len →
    (chunksWith P len).length = (len + (P.chunkW - 1)) / P.chunkW ∧
    ∀ j (h : j < (chunksWith P len).length),
      (chunksWith P len)[j] = (j * P.chunkW, min P.chunkW (len - j * P.chunkW)) ∧
      0 < (chunksWith P len)[j].2 ∧ (j + 1 < (chunksWith P len).length → (chunksWith P len)[j].2 = P.chunkW)) ∧
  chunks 504 = [(0, 64), (64, 64), (128, 64), (192, 64), (256, 64), (320, 64), (384, 64), (448, 56)]

/-- R124: the trailer is eight ASCII characters, the `m`-th the lowercase hexadecimal digit of bits 31-4m to 28-4m, most
significant first; different values have different trailers. -/
def Obligations.TrailerIsEightHexDigits : Prop :=
  (∀ v : Word, (hex8 v).length = 8 ∧ ∀ m (h : m < (hex8 v).length),
    ∀ d, d = v.toNat / 16 ^ (7 - m) % 16 →
      (hex8 v)[m].toNat = if d < 10 then 0x30 + d else 0x61 + (d - 10)) ∧
  (∀ v v' : Word, hex8 v = hex8 v' → v = v')

/-- R123, R130: `computeRecord` over at least `REGION_LEN` bytes, from any state of the block, with any nonzero
polynomial and any legal parameters, runs to its end; its record is the region (of longer data the first `REGION_LEN`
bytes, log entry 12) and the trailer of the CRC of the whole region from REG = 0, however the region is cut into chunks.
`verifyRecord` makes the same run and answers whether that trailer equals the stored one, byte for byte (R125; a stored
list of any length, log entry 12). On this hardware a record has 512 bytes (R127). -/
def Obligations.ComputeRecordAppendsTheCrc : Prop :=
  (∀ (P : Config.Params) (data : List Byte) (poly : Word) (s : State), P.legal = true → P.regionLen ≤ data.length →
    poly ≠ 0#32 →
    ∃ t, computeRecordWith P data poly s =
        .done (data.take P.regionLen ++ hex8 (drain (blockstep 0#32 (data.take P.regionLen) poly) poly)) t ∧
      t.crc = drain (blockstep 0#32 (data.take P.regionLen) poly) poly ∧
      t.reg = blockstep 0#32 (data.take P.regionLen) poly ∧ t.inputs = s.inputs ∧
      ∀ stored, verifyRecordWith P data stored poly s = .done (hex8 t.crc == stored) t) ∧
  (∀ (data stored : List Byte) (poly : Word) (s : State), 504 ≤ data.length → poly ≠ 0#32 →
    ∃ record t, computeRecord data poly s = .done record t ∧ record.length = 512 ∧ record.take 504 = data.take 504 ∧
      recordTrailer record = hex8 t.crc ∧ verifyRecord data stored poly s = .done (recordTrailer record == stored) t)

/-- R133, round trip: `verifyRecord` of the data with the trailer `computeRecord` made always reports pass, whatever
state the block is in when it verifies. -/
def Obligations.VerifyAcceptsWhatComputeMade : Prop :=
  ∀ (data record : List Byte) (poly : Word) (s t s' : State), data.length = 504 →
    computeRecord data poly s = .done record t →
    ∃ u, verifyRecord data (recordTrailer record) poly s' = .done true u

/-- R133, tamper detection, by the condition of 90_conflicts.md C9: with at least two bits set in the polynomial, a
single flipped bit of the data makes `verifyRecord` report fail against the old trailer; with one bit set the CRC from
REG = 0 is 0 for every message, so no flip is detected. -/
def Obligations.FlippedBitIsDetected : Prop :=
  (∀ (poly : Word) (i j : Nat), i ≠ j → poly.getLsbD i = true → poly.getLsbD j = true →
    ∀ (data record : List Byte) (s t s' : State) (n k : Nat) (h : n < data.length), data.length = 504 → k < 8 →
      computeRecord data poly s = .done record t →
      ∃ u, verifyRecord (data.set n (data[n] ^^^ (1#8 <<< k))) (recordTrailer record) poly s' = .done false u) ∧
  (∀ (n : Nat) (data : List Byte), n < 32 →
    drain (blockstep 0#32 data (1#32 <<< n)) (1#32 <<< n) = 0#32)

/-- R128: handed fewer than 504 bytes, `computeRecord` and `verifyRecord` fail with InsufficientData and issue no
command: the block is as it was. -/
def Obligations.ShortDataIssuesNoCommand : Prop :=
  ∀ (data stored : List Byte) (poly : Word) (s : State), data.length < 504 →
    computeRecord data poly s = .aborted .insufficientData s ∧
    verifyRecord data stored poly s = .aborted .insufficientData s

/-- R157: with the zero polynomial the first COMPUTE faults, and the host stops the record with that error: no further
COMPUTE (the answers are OK(0) to the LDPOLY, the 504 WRBUFs and the LDREG, then the one fault), no record, no trailer,
REG still at the initial value, and the block goes on. -/
def Obligations.ZeroPolynomialAbortsTheRecord : Prop :=
  ∀ (data stored : List Byte) (s : State), data.length = 504 →
    ∃ t, computeRecord data 0#32 s = .aborted .invalidPolynomial t ∧
      verifyRecord data stored 0#32 s = .aborted .invalidPolynomial t ∧
      t.rsps = s.rsps ++ List.replicate 506 (.ok 0#32) ++ [.fault .invalidPolynomial] ∧
      t.reg = 0#32 ∧ t.crc = s.crc ∧ t.status.crcv = false ∧ t.inputs = s.inputs

/-! ### The parameters, and what a refusal names -/

/-- R5: the parameters at this hardware's values, which meet their constraints, and the machine is the parametric one at
these values. (That `W` is an argument of the divider only and the width of `Word` is the model's, log entry 7.) -/
def Obligations.MachineIsTheParametricInstance : Prop :=
  Config.thisHardware = ⟨512, 64, 504, 8, 0xA053#32, 0x2E#8⟩ ∧ Config.thisHardware.legal = true ∧
  Word = BitVec Config.W ∧ Config.W = 32 ∧ Byte = BitVec Config.byteBits ∧ Config.byteBits = 8 ∧
  (∀ (i : Instr) (s : State), exec i s = execWith Config.thisHardware i s) ∧
  (∀ s : State, step s = stepWith Config.thisHardware s)

/-- R5, R41, R47: with any value of `BUF_LEN`, a command is answered InsufficientData exactly when it names a byte at or
above it (a COMPUTE after its polynomial check), and every command keeps the canonical form of a buffer of that length
(the form is the model's, log entry 4). -/
def Obligations.BufLenBoundsTheBuffer : Prop :=
  ∀ (P : Config.Params) (i : Instr) (s t : State), execWith P i s = .next t →
    (t.rsps = s.rsps ++ [.fault .insufficientData] ↔
      (∃ start len, i = .compute start len ∧ s.poly ≠ 0#32 ∧ P.bufLen < start + len) ∨
      (∃ a y, i = .wrbuf a y ∧ P.bufLen ≤ a) ∨ (∃ a, i = .rdbuf a ∧ P.bufLen ≤ a)) ∧
    (s.buf.wfIn P.bufLen = true → t.buf.wfIn P.bufLen = true)

/-- The model's choice of what a refusal names (log entry 4, its form a DESIGN CHOICE): a COMPUTE that R54 has the model
refuse names the lowest unwritten address of its range. -/
def Obligations.RefusalNamesTheLowestUnwrittenByte : Prop :=
  ∀ (s : State) (start len : Nat), s.poly ≠ 0#32 → start + len ≤ Config.bufLen → ¬ RangeWritten s start len →
    ∃ k, k < len ∧ s.buf.read (start + k) = none ∧ (∀ j, j < k → s.buf.read (start + j) ≠ none) ∧
      exec (.compute start len) s = .refused (.unwrittenByte (start + k))
end

