-- ==== Sys2Proof/Laws/Divider.lean ====
section
/-! SUPPORT. The laws of the divider's micro-operations, one spec lemma per function. -/

namespace Sys2Proof.Machine

variable {w : Nat}

/-- Above the highest set bit below `n`, no bit below `n` is set. -/
theorem degBelow_spec (p : BitVec w) (n : Nat) (h : ∃ i, i < n ∧ p.getLsbD i = true) :
    degBelow p n < n ∧ p.getLsbD (degBelow p n) = true ∧
      ∀ j, degBelow p n < j → j < n → p.getLsbD j = false := by
  induction n with
  | zero => obtain ⟨i, hi, -⟩ := h; omega
  | succ n ih =>
    by_cases hn : p.getLsbD n = true
    · simp only [degBelow, hn, if_true]
      exact ⟨by omega, trivial, fun j h1 h2 => by omega⟩
    · simp only [degBelow, hn, Bool.false_eq_true, if_false]
      obtain ⟨i, hi, hb⟩ := h
      have hne : i ≠ n := by rintro rfl; exact hn hb
      obtain ⟨h1, h2, h3⟩ := ih ⟨i, by omega, hb⟩
      refine ⟨by omega, h2, fun j hj hjn => ?_⟩
      by_cases hjn' : j = n
      · subst hjn'; simpa using hn
      · exact h3 j hj (by omega)

theorem exists_bit_of_ne_zero {p : BitVec w} (h : p ≠ 0#w) : ∃ i, i < w ∧ p.getLsbD i = true := by
  by_contra hc
  push Not at hc
  apply h
  ext i hi
  have := hc i hi
  simp only [BitVec.getElem_zero]
  rw [← BitVec.getLsbD_eq_getElem]
  simpa using this

/-- `deg(p)` is the index of the highest set bit (R100). -/
theorem deg_lt {p : BitVec w} (h : p ≠ 0#w) : deg p < w := (degBelow_spec p w (exists_bit_of_ne_zero h)).1

theorem getLsbD_deg {p : BitVec w} (h : p ≠ 0#w) : p.getLsbD (deg p) = true :=
  (degBelow_spec p w (exists_bit_of_ne_zero h)).2.1

theorem getLsbD_of_deg_lt {p : BitVec w} {j : Nat} (hj : deg p < j) : p.getLsbD j = false := by
  by_cases hw : j < w
  · by_cases h : p = 0#w
    · simp [h]
    · exact (degBelow_spec p w (exists_bit_of_ne_zero h)).2.2 j hj hw
  · exact BitVec.getLsbD_of_ge p j (by omega)

/-- The incoming bit stands at bit 0, every other bit moves up one place, bit W-1 is discarded (R102). -/
theorem shiftIn_getLsbD (r : BitVec w) (b : Bool) (i : Nat) :
    (shiftIn r b).getLsbD i = (decide (i < w) && if i = 0 then b else r.getLsbD (i - 1)) := by
  unfold shiftIn
  cases i with
  | zero => cases b <;> simp
  | succ i => cases b <;> simp [Bool.and_comm]

/-- Steps 3a and 3b as arithmetic: `trunc_W(2r + b)` (R102). -/
theorem shiftIn_toNat (r : BitVec w) (b : Bool) : (shiftIn r b).toNat = (2 * r.toNat + b.toNat) % 2 ^ w := by
  apply Nat.eq_of_testBit_eq
  intro i
  rw [← BitVec.getLsbD, shiftIn_getLsbD, Nat.testBit_mod_two_pow]
  congr 1
  cases i with
  | zero => cases b <;> simp [Nat.testBit_zero, Nat.add_mod]
  | succ i =>
    have : (2 * r.toNat + b.toNat) / 2 = r.toNat := by cases b <;> (simp; try omega)
    simp [Nat.testBit_succ, this, BitVec.getLsbD]

theorem bitstep_getLsbD (r : BitVec w) (b : Bool) (p : BitVec w) (i : Nat) :
    (bitstep r b p).getLsbD i =
      ((shiftIn r b).getLsbD i ^^ ((shiftIn r b).getLsbD (deg p) && p.getLsbD i)) := by
  unfold bitstep
  split <;> simp [*]

/-- A value whose bits from `d` up are clear is below `2^d`, and conversely. -/
theorem toNat_lt_two_pow_iff {r : BitVec w} {d : Nat} :
    r.toNat < 2 ^ d ↔ ∀ i, d ≤ i → r.getLsbD i = false := by
  constructor
  · intro h i hi
    exact Nat.testBit_lt_two_pow (lt_of_lt_of_le h (Nat.pow_le_pow_right (by omega) hi))
  · intro h
    exact Nat.lt_pow_two_of_testBit _ h

/-- The range invariant of one micro-step (R109). -/
theorem bitstep_lt {r p : BitVec w} {b : Bool} (hp : p ≠ 0#w) (hr : r.toNat < 2 ^ deg p) :
    (bitstep r b p).toNat < 2 ^ deg p := by
  rw [toNat_lt_two_pow_iff] at hr ⊢
  intro i hi
  rw [bitstep_getLsbD]
  rcases Nat.lt_or_ge (deg p) i with hlt | hge
  · have : r.getLsbD (i - 1) = false := hr _ (by omega)
    simp [shiftIn_getLsbD, getLsbD_of_deg_lt hlt, show i ≠ 0 by omega, this]
  · obtain rfl : i = deg p := by omega
    simp [getLsbD_deg hp]

/-- A micro-step moves every bit at or above `deg(p)` up one place, whatever the incoming bit (R110). -/
theorem bitstep_getLsbD_high (r : BitVec w) (b : Bool) (p : BitVec w) {j : Nat} (hj : deg p ≤ j) (hw : j + 1 < w) :
    (bitstep r b p).getLsbD (j + 1) = r.getLsbD j := by
  rw [bitstep_getLsbD, getLsbD_of_deg_lt (show deg p < j + 1 by omega), shiftIn_getLsbD]
  simp [hw]

theorem bytestep_eq_foldl (r : BitVec w) (y : Byte) (p : BitVec w) :
    bytestep r y p = (bitOrder.map y.getLsbD).foldl (fun r b => bitstep r b p) r := by
  simp [bytestep, List.foldl_map]

@[simp] theorem blockstep_nil (r p : BitVec w) : blockstep r [] p = r := rfl

@[simp] theorem blockstep_cons (r : BitVec w) (y : Byte) (ys : List Byte) (p : BitVec w) :
    blockstep r (y :: ys) p = blockstep (bytestep r y p) ys p := rfl

/-- The block step is a left fold, so it runs over joined lists one after the other (R107). -/
theorem blockstep_append (r : BitVec w) (xs ys : List Byte) (p : BitVec w) :
    blockstep r (xs ++ ys) p = blockstep (blockstep r xs p) ys p := List.foldl_append

/-- The block step is one bit step per message bit, in the order of R42. -/
theorem blockstep_eq_foldl (r : BitVec w) (ys : List Byte) (p : BitVec w) :
    blockstep r ys p = (messageBits ys).foldl (fun r b => bitstep r b p) r := by
  induction ys generalizing r with
  | nil => rfl
  | cons y ys ih => simp only [blockstep_cons, ih, bytestep_eq_foldl, messageBits, List.flatMap_cons, List.foldl_append]

@[simp] theorem zeroSteps_zero (p r : BitVec w) : zeroSteps p 0 r = r := rfl

theorem zeroSteps_eq_foldl (p : BitVec w) (n : Nat) (r : BitVec w) :
    zeroSteps p n r = (List.replicate n false).foldl (fun r b => bitstep r b p) r := by
  induction n generalizing r with
  | zero => rfl
  | succ n ih => simp only [zeroSteps, ih, List.replicate_succ, List.foldl_cons]

/-- The drain after the block step is one fold of bit steps over the micro-inputs (R112). -/
theorem drain_blockstep_eq_foldl (r : BitVec w) (ys : List Byte) (p : BitVec w) :
    drain (blockstep r ys p) p = (microInputs ys p).foldl (fun r b => bitstep r b p) r := by
  simp only [drain, zeroSteps_eq_foldl, blockstep_eq_foldl, microInputs, List.foldl_append]

@[simp] theorem messageBits_length (ys : List Byte) : (messageBits ys).length = 8 * ys.length := by
  simp [messageBits, bitOrder, List.length_flatMap, Nat.mul_comm]

@[simp] theorem microInputs_length (ys : List Byte) (p : BitVec w) :
    (microInputs ys p).length = 8 * ys.length + deg p := by
  simp [microInputs]

/-- The range invariant over any number of micro-steps (R109). -/
theorem foldl_bitstep_lt {p : BitVec w} (hp : p ≠ 0#w) (bs : List Bool) {r : BitVec w} (hr : r.toNat < 2 ^ deg p) :
    (bs.foldl (fun r b => bitstep r b p) r).toNat < 2 ^ deg p := by
  induction bs generalizing r with
  | nil => exact hr
  | cons b bs ih => exact ih (bitstep_lt hp hr)

theorem blockstep_lt {p r : BitVec w} (hp : p ≠ 0#w) (ys : List Byte) (hr : r.toNat < 2 ^ deg p) :
    (blockstep r ys p).toNat < 2 ^ deg p := by
  rw [blockstep_eq_foldl]; exact foldl_bitstep_lt hp _ hr

theorem drain_lt {p r : BitVec w} (hp : p ≠ 0#w) (hr : r.toNat < 2 ^ deg p) : (drain r p).toNat < 2 ^ deg p := by
  rw [drain, zeroSteps_eq_foldl]; exact foldl_bitstep_lt hp _ hr

end Sys2Proof.Machine
end

