-- ==== Sys2Proof/Laws/Algebra.lean ====
section
/-! SUPPORT. The laws of numbers read as polynomials over GF(2): their coefficients, their degree, equality. -/

namespace Sys2Proof.Algebra

open Polynomial Sys2Proof.Machine

theorem coeff_bitsPoly (n k i : Nat) :
    (bitsPoly n k).coeff i = if i < k ∧ n.testBit i = true then 1 else 0 := by
  unfold bitsPoly
  rw [finsetSum_coeff]
  have h : ∀ j ∈ Finset.range k, (if n.testBit j = true then (X : (ZMod 2)[X]) ^ j else 0).coeff i =
      if i = j then (if n.testBit i = true then 1 else 0) else 0 := by
    intro j _
    rcases eq_or_ne i j with rfl | hij
    · split <;> simp
    · split <;> simp [coeff_X_pow, hij]
  rw [Finset.sum_congr rfl h, Finset.sum_ite_eq (Finset.range k) i]
  by_cases hk : i < k <;> simp [hk]

/-- The coefficient of x^i is bit `i` (R8, R111). -/
@[simp] theorem coeff_toPoly {w : Nat} (v : BitVec w) (i : Nat) :
    (toPoly v).coeff i = if v.getLsbD i = true then 1 else 0 := by
  rw [toPoly, coeff_bitsPoly]
  by_cases h : i < w
  · simp [h, BitVec.getLsbD]
  · simp [h, BitVec.getLsbD_of_ge v i (by omega)]

/-- `deg(p)` is the degree of `p(x)` (R100). -/
theorem degree_toPoly {w : Nat} {p : BitVec w} (hp : p ≠ 0#w) : (toPoly p).degree = deg p := by
  refine le_antisymm ?_ (le_degree_of_ne_zero (by simp [getLsbD_deg hp]))
  rw [degree_le_iff_coeff_zero]
  intro m hm
  simp [getLsbD_of_deg_lt (show deg p < m by exact_mod_cast hm)]

theorem degree_toPoly_lt {w d : Nat} {r : BitVec w} (h : r.toNat < 2 ^ d) : (toPoly r).degree < d := by
  rw [degree_lt_iff_coeff_zero]
  intro m hm
  simp [toNat_lt_two_pow_iff.mp h m hm]

/-- A number is its polynomial. -/
theorem toPoly_inj {w : Nat} {a b : BitVec w} (h : toPoly a = toPoly b) : a = b := by
  apply BitVec.eq_of_getLsbD_eq
  intro i _
  have := congrArg (fun q => q.coeff i) h
  simp only [coeff_toPoly] at this
  cases ha : a.getLsbD i <;> cases hb : b.getLsbD i <;> simp [ha, hb] at this ⊢

end Sys2Proof.Algebra
end

