-- ==== Sys2Proof/Laws/Decode.lean ====
section
/-! SUPPORT. The fields of a command word: of a word as a number, and of the words the encoder makes. -/

namespace Sys2Proof

/-- The fields as arithmetic on the word's number. -/
theorem opField_toNat (c : CmdWord) : (opField c).toNat = c.toNat / 2 ^ 32 := by
  have := c.isLt
  simp only [opField, BitVec.extractLsb'_toNat, Nat.shiftRight_eq_div_pow]
  omega

theorem immField_toNat (c : CmdWord) : (immField c).toNat = c.toNat % 2 ^ 32 := by
  simp [immField, BitVec.extractLsb'_toNat]

theorem highField_eq (c : CmdWord) : highField c = c.toNat / 65536 % 65536 := by
  simp [highField, BitVec.extractLsb'_toNat, Nat.shiftRight_eq_div_pow]

theorem lenField_eq (c : CmdWord) : lenField c = c.toNat % 65536 := by
  simp [lenField, BitVec.extractLsb'_toNat]

theorem dataField_toNat (c : CmdWord) : (dataField c).toNat = c.toNat % 256 := by
  simp [dataField, BitVec.extractLsb'_toNat]

theorem zeroFieldN_toNat (c : CmdWord) : (zeroFieldN c).toNat = c.toNat % 2 ^ 32 := by
  simp [zeroFieldN, BitVec.extractLsb'_toNat]

theorem zeroFieldB_toNat (c : CmdWord) : (zeroFieldB c).toNat = c.toNat / 256 % 256 := by
  simp [zeroFieldB, BitVec.extractLsb'_toNat, Nat.shiftRight_eq_div_pow]

theorem zeroFieldA_toNat (c : CmdWord) : (zeroFieldA c).toNat = c.toNat % 65536 := by
  simp [zeroFieldA, BitVec.extractLsb'_toNat]

theorem highField_lt (c : CmdWord) : highField c < 65536 := by rw [highField_eq]; omega

theorem lenField_lt (c : CmdWord) : lenField c < 65536 := by rw [lenField_eq]; omega

/-- The number of a word made of two parts. -/
theorem append_toNat {m n : Nat} (a : BitVec m) (b : BitVec n) : (a ++ b).toNat = a.toNat * 2 ^ n + b.toNat := by
  rw [BitVec.toNat_append, Nat.shiftLeft_eq, Nat.mul_comm, ← Nat.two_pow_add_eq_or_of_lt b.isLt]

/-- The encoder's words as numbers (R61, R70). -/
theorem encode_ldpoly_toNat (imm : Word) : (encode (.ldpoly imm)).toNat = 1 * 2 ^ 32 + imm.toNat :=
  append_toNat _ _

theorem encode_ldreg_toNat (imm : Word) : (encode (.ldreg imm)).toNat = 2 * 2 ^ 32 + imm.toNat :=
  append_toNat _ _

theorem encode_compute_toNat (start len : Nat) :
    (encode (.compute start len)).toNat = 3 * 2 ^ 32 + start % 65536 * 65536 + len % 65536 := by
  refine (append_toNat (0x3#4 ++ BitVec.ofNat 16 start) (BitVec.ofNat 16 len)).trans ?_
  rw [append_toNat]
  simp only [BitVec.toNat_ofNat]
  omega

theorem encode_wrbuf_toNat (addr : Nat) (data : Byte) :
    (encode (.wrbuf addr data)).toNat = 8 * 2 ^ 32 + addr % 65536 * 65536 + data.toNat := by
  refine (append_toNat (0x8#4 ++ BitVec.ofNat 16 addr ++ 0#8) data).trans ?_
  rw [append_toNat, append_toNat]
  simp only [BitVec.toNat_ofNat]
  omega

theorem encode_rdbuf_toNat (addr : Nat) :
    (encode (.rdbuf addr)).toNat = 9 * 2 ^ 32 + addr % 65536 * 65536 := by
  refine (append_toNat (0x9#4 ++ BitVec.ofNat 16 addr) 0#16).trans ?_
  rw [append_toNat]
  simp only [BitVec.toNat_ofNat]
  omega

end Sys2Proof
end

