-- ==== Sys2Proof/Laws/Memory.lean ====
section
/-! SUPPORT. The laws of the buffer: read after write, the canonical form, and what a range read gives. -/

namespace Sys2Proof.Machine

@[simp] theorem Memory.read_nil (a : Nat) : Memory.read [] a = none := rfl

/-- A read after a write to the same address gives the byte written (R49). -/
@[simp] theorem Memory.read_write_same (m : Memory) (a : Nat) (v : Byte) : (m.write a v).read a = some v := by
  induction m with
  | nil => simp [Memory.write, Memory.read]
  | cons c m ih =>
    obtain ⟨b, y⟩ := c
    simp only [Memory.write]
    split
    · simp [Memory.read]
    · split
      · simp [Memory.read]
      · simp [Memory.read, *]

/-- A write leaves every other address alone (R41). -/
theorem Memory.read_write_other (m : Memory) {a b : Nat} (v : Byte) (h : b ≠ a) :
    (m.write a v).read b = m.read b := by
  induction m with
  | nil => simp [Memory.write, Memory.read, h]
  | cons c m ih =>
    obtain ⟨d, y⟩ := c
    simp only [Memory.write]
    split
    · simp [Memory.read, h]
    · split
      · next _ hd => subst hd; simp [Memory.read, h]
      · simp [Memory.read, ih]

/-- Writing the same byte twice is writing it once (R46). -/
theorem Memory.write_write_same (m : Memory) (a : Nat) (v : Byte) : (m.write a v).write a v = m.write a v := by
  induction m with
  | nil => simp [Memory.write]
  | cons c m ih =>
    obtain ⟨d, y⟩ := c
    by_cases h1 : a < d
    · simp [Memory.write, h1]
    · by_cases h2 : a = d
      · simp [Memory.write, h2]
      · simp [Memory.write, h1, h2, ih]

theorem Memory.risingFrom_cons {hi lo a : Nat} {y : Byte} {m : Memory} :
    Memory.risingFrom hi lo ((a, y) :: m) = true ↔ lo ≤ a ∧ a < hi ∧ Memory.risingFrom hi (a + 1) m = true := by
  simp [Memory.risingFrom, and_assoc]

theorem Memory.risingFrom_mono {hi lo lo' : Nat} {m : Memory} (h : Memory.risingFrom hi lo m = true) (hl : lo' ≤ lo) :
    Memory.risingFrom hi lo' m = true := by
  cases m with
  | nil => rfl
  | cons c m =>
    obtain ⟨a, y⟩ := c
    rw [Memory.risingFrom_cons] at h ⊢
    exact ⟨by omega, h.2⟩

/-- A write below the bound keeps the addresses rising. -/
theorem Memory.write_risingFrom {hi lo a : Nat} {v : Byte} {m : Memory} (h : Memory.risingFrom hi lo m = true)
    (hlo : lo ≤ a) (ha : a < hi) : Memory.risingFrom hi lo (m.write a v) = true := by
  induction m generalizing lo with
  | nil => simp [Memory.write, hlo, ha, Memory.risingFrom]
  | cons c m ih =>
    obtain ⟨d, y⟩ := c
    rw [Memory.risingFrom_cons] at h
    simp only [Memory.write]
    split
    · rw [Memory.risingFrom_cons, Memory.risingFrom_cons]
      exact ⟨hlo, ha, by omega, h.2.1, h.2.2⟩
    · split
      · next _ hd => subst hd; rw [Memory.risingFrom_cons]; exact h
      · rw [Memory.risingFrom_cons]
        exact ⟨h.1, h.2.1, ih h.2.2 (by omega)⟩

/-- Every checked write keeps the canonical form. -/
theorem memWrite_wf {P : Config.Params} {m m' : Memory} {a : Nat} {v : Byte} (h : m.wfIn P.bufLen = true)
    (hw : memWrite P m a v = some m') : m'.wfIn P.bufLen = true := by
  unfold memWrite at hw
  split at hw
  · cases hw
  · cases hw; exact Memory.write_risingFrom h (Nat.zero_le _) (by omega)

/-- An address below the first one listed is unwritten. -/
theorem Memory.read_eq_none_of_lt {hi lo a : Nat} {m : Memory} (h : Memory.risingFrom hi lo m = true) (ha : a < lo) :
    m.read a = none := by
  induction m generalizing lo with
  | nil => rfl
  | cons c m ih =>
    obtain ⟨d, y⟩ := c
    rw [Memory.risingFrom_cons] at h
    have : a ≠ d := by omega
    simp only [Memory.read, this, if_false]
    exact ih h.2.2 (by omega)

/-- Only addresses below the bound hold a byte (R47). -/
theorem Memory.read_eq_none_of_ge {hi lo a : Nat} {m : Memory} (h : Memory.risingFrom hi lo m = true)
    (ha : hi ≤ a) : m.read a = none := by
  induction m generalizing lo with
  | nil => rfl
  | cons c m ih =>
    obtain ⟨d, y⟩ := c
    rw [Memory.risingFrom_cons] at h
    have : a ≠ d := by omega
    simp only [Memory.read, this, if_false]
    exact ih h.2.2

/-- `MemWrite` of R41, said once. -/
theorem memWrite_eq_some {P : Config.Params} {m m' : Memory} {a : Nat} {v : Byte} :
    memWrite P m a v = some m' ↔ a < P.bufLen ∧ m' = m.write a v := by
  unfold memWrite
  split
  · simp; omega
  · simp [eq_comm]; omega

theorem memWrite_eq_none {P : Config.Params} {m : Memory} {a : Nat} {v : Byte} : memWrite P m a v = none ↔ P.bufLen ≤ a := by
  unfold memWrite
  split <;> (simp; omega)

/-- `MemRead` of R41 with the written-mark of R54, said once. -/
theorem memRead_eq_byte {P : Config.Params} {m : Memory} {a : Nat} {y : Byte} :
    memRead P m a = .byte y ↔ a < P.bufLen ∧ m.read a = some y := by
  unfold memRead
  split
  · simp; omega
  · split <;> (simp [*]; try omega)

theorem memRead_eq_insufficientData {P : Config.Params} {m : Memory} {a : Nat} :
    memRead P m a = .insufficientData ↔ P.bufLen ≤ a := by
  unfold memRead
  split
  · simp; omega
  · split <;> (simp; try omega)

theorem memRead_eq_unwritten {P : Config.Params} {m : Memory} {a : Nat} :
    memRead P m a = .unwritten ↔ a < P.bufLen ∧ m.read a = none := by
  unfold memRead
  split
  · simp; omega
  · split <;> (simp [*]; try omega)

/-- A range read that succeeds gives exactly the bytes of the range, in ascending address order (R42, R104). -/
theorem readRange_eq_ok {m : Memory} {a n : Nat} {ys : List Byte} :
    readRange m a n = .ok ys ↔
      ys.length = n ∧ ∀ k (h : k < ys.length), m.read (a + k) = some ys[k] := by
  induction n generalizing a ys with
  | zero =>
    cases ys <;> simp [readRange]
  | succ n ih =>
    simp only [readRange]
    cases hr : m.read a with
    | none =>
      simp only [reduceCtorEq, false_iff, not_and]
      intro hl hk
      have := hk 0 (by omega)
      simp [hr] at this
    | some y =>
      cases hn : readRange m (a + 1) n with
      | error e =>
        simp only [reduceCtorEq, false_iff, not_and]
        intro hl hk
        cases ys with
        | nil => simp at hl
        | cons z zs =>
          have : readRange m (a + 1) n = .ok zs := by
            rw [ih]
            refine ⟨by simpa using hl, fun k h => ?_⟩
            have := hk (k + 1) (by simpa using h)
            simpa [Nat.add_assoc, Nat.add_comm 1 k] using this
          simp [this] at hn
      | ok zs =>
        have hz := ih.mp hn
        constructor
        · rintro h
          cases h
          refine ⟨by simp [hz.1], fun k h => ?_⟩
          cases k with
          | zero => simpa using hr
          | succ k =>
            have := hz.2 k (by simpa using h)
            simpa [Nat.add_assoc, Nat.add_comm 1 k] using this
        · rintro ⟨hl, hk⟩
          cases ys with
          | nil => simp at hl
          | cons w ws =>
            have h0 := hk 0 (by simp)
            simp only [Nat.add_zero, hr, List.getElem_cons_zero, Option.some.injEq] at h0
            have : readRange m (a + 1) n = .ok ws := by
              rw [ih]
              refine ⟨by simpa using hl, fun k h => ?_⟩
              have := hk (k + 1) (by simpa using h)
              simpa [Nat.add_assoc, Nat.add_comm 1 k] using this
            rw [hn] at this
            cases this
            simp [h0]

/-- A range read that fails names the first byte of the range that nobody has written (R54). -/
theorem readRange_eq_error {m : Memory} {a n e : Nat} (h : readRange m a n = .error e) :
    a ≤ e ∧ e < a + n ∧ m.read e = none ∧ ∀ b, a ≤ b → b < e → m.read b ≠ none := by
  induction n generalizing a with
  | zero => simp [readRange] at h
  | succ n ih =>
    simp only [readRange] at h
    cases hr : m.read a with
    | none =>
      simp only [hr, Except.error.injEq] at h
      subst h
      exact ⟨le_refl _, by omega, hr, fun b h1 h2 => by omega⟩
    | some y =>
      cases hn : readRange m (a + 1) n with
      | ok zs => simp [hr, hn] at h
      | error e' =>
        simp only [hr, hn, Except.error.injEq] at h
        subst h
        obtain ⟨h1, h2, h3, h4⟩ := ih hn
        refine ⟨by omega, by omega, h3, fun b hb1 hb2 => ?_⟩
        by_cases hb : b = a
        · simp [hb, hr]
        · exact h4 b (by omega) hb2

/-- A range whose every byte is written can be read. -/
theorem readRange_ok_of_written {m : Memory} {a n : Nat} (h : ∀ k, k < n → m.read (a + k) ≠ none) :
    ∃ ys, readRange m a n = .ok ys := by
  cases hr : readRange m a n with
  | ok ys => exact ⟨ys, rfl⟩
  | error e =>
    obtain ⟨h1, h2, h3, -⟩ := readRange_eq_error hr
    have := h (e - a) (by omega)
    rw [Nat.add_sub_cancel' h1] at this
    exact absurd h3 this

end Sys2Proof.Machine
end

