-- ==== Sys2Proof/Laws/State.lean ====
section
/-! SUPPORT. One lemma per field per update of the state, true by unfolding, so that no later proof unfolds a record
update; and the spec lemmas of the flag computations. -/

namespace Sys2Proof.Machine

@[simp] theorem respond_poly (v : Word) (s : State) : (respond v s).poly = s.poly := rfl
@[simp] theorem respond_reg (v : Word) (s : State) : (respond v s).reg = s.reg := rfl
@[simp] theorem respond_crc (v : Word) (s : State) : (respond v s).crc = s.crc := rfl
@[simp] theorem respond_status (v : Word) (s : State) : (respond v s).status = s.status := rfl
@[simp] theorem respond_buf (v : Word) (s : State) : (respond v s).buf = s.buf := rfl
@[simp] theorem respond_inputs (v : Word) (s : State) : (respond v s).inputs = s.inputs := rfl
@[simp] theorem respond_rsps (v : Word) (s : State) : (respond v s).rsps = s.rsps ++ [.ok v] := rfl

@[simp] theorem raise_poly (f : Fault) (b : Bool) (s : State) : (raise f b s).poly = s.poly := rfl
@[simp] theorem raise_reg (f : Fault) (b : Bool) (s : State) : (raise f b s).reg = s.reg := rfl
@[simp] theorem raise_crc (f : Fault) (b : Bool) (s : State) : (raise f b s).crc = s.crc := rfl
@[simp] theorem raise_status (f : Fault) (b : Bool) (s : State) :
    (raise f b s).status = s.status.afterFault f b := rfl
@[simp] theorem raise_buf (f : Fault) (b : Bool) (s : State) : (raise f b s).buf = s.buf := rfl
@[simp] theorem raise_inputs (f : Fault) (b : Bool) (s : State) : (raise f b s).inputs = s.inputs := rfl
@[simp] theorem raise_rsps (f : Fault) (b : Bool) (s : State) : (raise f b s).rsps = s.rsps ++ [.fault f] := rfl

@[simp] theorem finishCompute_poly (ys : List Byte) (s : State) : (finishCompute ys s).poly = s.poly := rfl
@[simp] theorem finishCompute_reg (ys : List Byte) (s : State) :
    (finishCompute ys s).reg = blockstep s.reg ys s.poly := rfl
@[simp] theorem finishCompute_crc (ys : List Byte) (s : State) :
    (finishCompute ys s).crc = drain (blockstep s.reg ys s.poly) s.poly := rfl
@[simp] theorem finishCompute_status (ys : List Byte) (s : State) :
    (finishCompute ys s).status = s.status.afterCompute := rfl
@[simp] theorem finishCompute_buf (ys : List Byte) (s : State) : (finishCompute ys s).buf = s.buf := rfl
@[simp] theorem finishCompute_inputs (ys : List Byte) (s : State) : (finishCompute ys s).inputs = s.inputs := rfl
@[simp] theorem finishCompute_rsps (ys : List Byte) (s : State) :
    (finishCompute ys s).rsps = s.rsps ++ [.ok (drain (blockstep s.reg ys s.poly) s.poly)] := rfl

@[simp] theorem applyReset_poly (s : State) : (applyReset s).poly = 0#32 := rfl
@[simp] theorem applyReset_reg (s : State) : (applyReset s).reg = 0#32 := rfl
@[simp] theorem applyReset_crc (s : State) : (applyReset s).crc = 0#32 := rfl
@[simp] theorem applyReset_status (s : State) : (applyReset s).status = State.reset.status := rfl
@[simp] theorem applyReset_buf (s : State) : (applyReset s).buf = [] := rfl
@[simp] theorem applyReset_inputs (s : State) : (applyReset s).inputs = s.inputs := rfl
@[simp] theorem applyReset_rsps (s : State) : (applyReset s).rsps = s.rsps := rfl

@[simp] theorem presentWord_poly (c : CmdWord) (s : State) : (presentWord c s).poly = s.poly := rfl
@[simp] theorem presentWord_reg (c : CmdWord) (s : State) : (presentWord c s).reg = s.reg := rfl
@[simp] theorem presentWord_crc (c : CmdWord) (s : State) : (presentWord c s).crc = s.crc := rfl
@[simp] theorem presentWord_status (c : CmdWord) (s : State) : (presentWord c s).status = s.status := rfl
@[simp] theorem presentWord_buf (c : CmdWord) (s : State) : (presentWord c s).buf = s.buf := rfl
@[simp] theorem presentWord_inputs (c : CmdWord) (s : State) :
    (presentWord c s).inputs = .command c :: s.inputs := rfl
@[simp] theorem presentWord_rsps (c : CmdWord) (s : State) : (presentWord c s).rsps = s.rsps := rfl

/-- A COMPUTE without fault sets CRCV and leaves every sticky bit (R24, R106). -/
@[simp] theorem afterCompute_crcv (t : Status) : t.afterCompute.crcv = true := rfl
@[simp] theorem afterCompute_sticky (t : Status) (f : Fault) : t.afterCompute.sticky f = t.sticky f := by
  cases f <;> rfl

/-- A fault sets its own sticky bit and leaves the others (R148). -/
@[simp] theorem afterFault_sticky (t : Status) (f g : Fault) (b : Bool) :
    (t.afterFault f b).sticky g = (t.sticky g || decide (f = g)) := by
  cases f <;> cases g <;> cases b <;> simp [Status.afterFault, Status.record, Status.sticky]

/-- A fault clears CRCV exactly if the command is a COMPUTE (R148). -/
@[simp] theorem afterFault_crcv (t : Status) (f : Fault) (b : Bool) :
    (t.afterFault f b).crcv = (t.crcv && !b) := by
  cases f <;> cases b <;> simp [Status.afterFault, Status.record]

/-- The flags are their CRCV and their three sticky bits. -/
theorem Status.ext_sticky {t u : Status} (hc : t.crcv = u.crcv) (hs : ∀ f, t.sticky f = u.sticky f) : t = u := by
  cases t; cases u
  have h1 := hs .invalidPolynomial
  have h2 := hs .insufficientData
  have h3 := hs .illegalCommand
  simp_all [Status.sticky]

/-- The word of STATUS is below 16 (R85). -/
theorem Status.word_lt (t : Status) : t.word.toNat < 16 := by
  simp only [Status.word, BitVec.toNat_setWidth]
  have := t.bits.isLt
  omega

end Sys2Proof.Machine
end

