-- ==== Sys2Proof/Laws/Exec.lean ====
section
/-! SUPPORT. What each command can do, said once: the meaning of every command under each of its conditions, the
inversion lemma of `exec`, and what a step can do. Later proofs cite these and do not unfold the meanings. -/

namespace Sys2Proof.Machine

theorem exec_ldpoly (imm : Word) (s : State) : exec (.ldpoly imm) s = .next (respond 0#32 { s with poly := imm }) := rfl
theorem exec_ldreg (imm : Word) (s : State) : exec (.ldreg imm) s = .next (respond 0#32 { s with reg := imm }) := rfl
theorem exec_rdcrc (s : State) : exec .rdcrc s = .next (respond s.crc s) := rfl
theorem exec_rdreg (s : State) : exec .rdreg s = .next (respond s.reg s) := rfl
theorem exec_rdpoly (s : State) : exec .rdpoly s = .next (respond s.poly s) := rfl
theorem exec_rdstat (s : State) : exec .rdstat s = .next (respond s.status.word s) := rfl

/-! ### The commands that look at `BUF_LEN`, for every value of the parameters (R5) -/

/-- WRBUF inside the buffer (R86). -/
theorem execWrbufWith_ok {P : Config.Params} {addr : Nat} (h : addr < P.bufLen) (data : Byte) (s : State) :
    execWrbufWith P addr data s = .next (respond 0#32 { s with buf := s.buf.write addr data }) := by
  simp [execWrbufWith, memWrite_eq_some.mpr ⟨h, rfl⟩]

/-- WRBUF past the buffer (R86, R142). -/
theorem execWrbufWith_fault {P : Config.Params} {addr : Nat} (h : P.bufLen ≤ addr) (data : Byte) (s : State) :
    execWrbufWith P addr data s = .next (raise .insufficientData false s) := by
  simp [execWrbufWith, memWrite_eq_none.mpr h]

/-- RDBUF of a written byte (R87). -/
theorem execRdbufWith_ok {P : Config.Params} {addr : Nat} {y : Byte} {s : State} (h : addr < P.bufLen)
    (hy : s.buf.read addr = some y) : execRdbufWith P addr s = .next (respond (zextByte y) s) := by
  simp [execRdbufWith, memRead_eq_byte.mpr ⟨h, hy⟩]

/-- RDBUF past the buffer (R87, R142). -/
theorem execRdbufWith_fault {P : Config.Params} {addr : Nat} (h : P.bufLen ≤ addr) (s : State) :
    execRdbufWith P addr s = .next (raise .insufficientData false s) := by
  simp [execRdbufWith, memRead_eq_insufficientData.mpr h]

/-- RDBUF of a byte nobody has written (R54). -/
theorem execRdbufWith_refused {P : Config.Params} {addr : Nat} {s : State} (h : addr < P.bufLen)
    (hy : s.buf.read addr = none) : execRdbufWith P addr s = .refused (.unwrittenByte addr) := by
  simp [execRdbufWith, memRead_eq_unwritten.mpr ⟨h, hy⟩]

theorem rangeFits_eq_true {P : Config.Params} {start len : Nat} :
    rangeFits P start len = true ↔ start + len ≤ P.bufLen := by simp [rangeFits]

/-- COMPUTE with POLY = 0 (R106, R141). -/
theorem execComputeWith_invalid {s : State} (h : s.poly = 0#32) (P : Config.Params) (start len : Nat) :
    execComputeWith P start len s = .next (raise .invalidPolynomial true s) := by
  simp [execComputeWith, h]

/-- COMPUTE over a range that leaves the buffer (R106, R142, R147). -/
theorem execComputeWith_insufficient {P : Config.Params} {s : State} (h : s.poly ≠ 0#32) {start len : Nat}
    (hr : P.bufLen < start + len) :
    execComputeWith P start len s = .next (raise .insufficientData true s) := by
  have : rangeFits P start len = false := by simp [rangeFits, hr]
  simp [execComputeWith, h, this]

/-- COMPUTE that passes its checks, over written bytes (R106). -/
theorem execComputeWith_ok {P : Config.Params} {s : State} (h : s.poly ≠ 0#32) {start len : Nat}
    (hr : start + len ≤ P.bufLen) {ys : List Byte} (hy : readRange s.buf start len = .ok ys) :
    execComputeWith P start len s = .next (finishCompute ys s) := by
  simp [execComputeWith, h, rangeFits_eq_true.mpr hr, hy]

/-- COMPUTE that passes its checks, over a byte nobody has written (R54). -/
theorem execComputeWith_refused {P : Config.Params} {s : State} (h : s.poly ≠ 0#32) {start len a : Nat}
    (hr : start + len ≤ P.bufLen) (hy : readRange s.buf start len = .error a) :
    execComputeWith P start len s = .refused (.unwrittenByte a) := by
  simp [execComputeWith, h, rangeFits_eq_true.mpr hr, hy]

/-- `exec` is the parametric machine at this hardware's parameters. -/
theorem execWith_thisHardware : execWith Config.thisHardware = exec := by
  funext i s
  cases i <;> rfl

/-- `step` is the parametric machine at this hardware's parameters. -/
theorem stepWith_thisHardware : stepWith Config.thisHardware = step := by
  funext s
  rw [stepWith, execWith_thisHardware, step]

/-! ### The same on this hardware -/

theorem exec_wrbuf_ok {addr : Nat} (h : addr < Config.bufLen) (data : Byte) (s : State) :
    exec (.wrbuf addr data) s = .next (respond 0#32 { s with buf := s.buf.write addr data }) :=
  execWrbufWith_ok h data s

theorem exec_wrbuf_fault {addr : Nat} (h : Config.bufLen ≤ addr) (data : Byte) (s : State) :
    exec (.wrbuf addr data) s = .next (raise .insufficientData false s) := execWrbufWith_fault h data s

theorem exec_rdbuf_ok {addr : Nat} {y : Byte} {s : State} (h : addr < Config.bufLen) (hy : s.buf.read addr = some y) :
    exec (.rdbuf addr) s = .next (respond (zextByte y) s) := execRdbufWith_ok h hy

theorem exec_rdbuf_fault {addr : Nat} (h : Config.bufLen ≤ addr) (s : State) :
    exec (.rdbuf addr) s = .next (raise .insufficientData false s) := execRdbufWith_fault h s

theorem exec_rdbuf_refused {addr : Nat} {s : State} (h : addr < Config.bufLen) (hy : s.buf.read addr = none) :
    exec (.rdbuf addr) s = .refused (.unwrittenByte addr) := execRdbufWith_refused h hy

theorem exec_compute_invalid {s : State} (h : s.poly = 0#32) (start len : Nat) :
    exec (.compute start len) s = .next (raise .invalidPolynomial true s) := execComputeWith_invalid h _ start len

theorem exec_compute_insufficient {s : State} (h : s.poly ≠ 0#32) {start len : Nat}
    (hr : Config.bufLen < start + len) :
    exec (.compute start len) s = .next (raise .insufficientData true s) := execComputeWith_insufficient h hr

theorem exec_compute_ok {s : State} (h : s.poly ≠ 0#32) {start len : Nat} (hr : start + len ≤ Config.bufLen)
    {ys : List Byte} (hy : readRange s.buf start len = .ok ys) :
    exec (.compute start len) s = .next (finishCompute ys s) := execComputeWith_ok h hr hy

theorem exec_compute_refused {s : State} (h : s.poly ≠ 0#32) {start len a : Nat} (hr : start + len ≤ Config.bufLen)
    (hy : readRange s.buf start len = .error a) :
    exec (.compute start len) s = .refused (.unwrittenByte a) := execComputeWith_refused h hr hy

/-- Everything a command can do when it answers a next state. -/
inductive Effect (i : Instr) (s : State) : State → Prop
  | ldpoly (imm : Word) (hi : i = .ldpoly imm) : Effect i s (respond 0#32 { s with poly := imm })
  | ldreg (imm : Word) (hi : i = .ldreg imm) : Effect i s (respond 0#32 { s with reg := imm })
  | answer (v : Word)
      (hi : (i = .rdcrc ∧ v = s.crc) ∨ (i = .rdreg ∧ v = s.reg) ∨ (i = .rdpoly ∧ v = s.poly) ∨
        (i = .rdstat ∧ v = s.status.word) ∨
        ∃ addr y, i = .rdbuf addr ∧ addr < Config.bufLen ∧ s.buf.read addr = some y ∧ v = zextByte y) :
      Effect i s (respond v s)
  | wrbuf (addr : Nat) (data : Byte) (hi : i = .wrbuf addr data) (ha : addr < Config.bufLen) :
      Effect i s (respond 0#32 { s with buf := s.buf.write addr data })
  | compute (start len : Nat) (ys : List Byte) (hi : i = .compute start len) (hp : s.poly ≠ 0#32)
      (hr : start + len ≤ Config.bufLen) (hy : readRange s.buf start len = .ok ys) :
      Effect i s (finishCompute ys s)
  | invalid (start len : Nat) (hi : i = .compute start len) (hp : s.poly = 0#32) :
      Effect i s (raise .invalidPolynomial true s)
  | insufficient
      (hi : (∃ start len, i = .compute start len ∧ s.poly ≠ 0#32 ∧ Config.bufLen < start + len) ∨
        (∃ addr data, i = .wrbuf addr data ∧ Config.bufLen ≤ addr) ∨
        (∃ addr, i = .rdbuf addr ∧ Config.bufLen ≤ addr)) :
      Effect i s (raise .insufficientData i.isCompute s)

/-- The inversion lemma of `exec`: where it answers a next state, that state is one of these. -/
theorem exec_next {i : Instr} {s t : State} (h : exec i s = .next t) : Effect i s t := by
  cases i with
  | ldpoly imm => cases h; exact .ldpoly imm rfl
  | ldreg imm => cases h; exact .ldreg imm rfl
  | rdcrc => cases h; exact .answer _ (by simp)
  | rdreg => cases h; exact .answer _ (by simp)
  | rdpoly => cases h; exact .answer _ (by simp)
  | rdstat => cases h; exact .answer _ (by simp)
  | wrbuf addr data =>
    rcases Nat.lt_or_ge addr Config.bufLen with ha | ha
    · rw [exec_wrbuf_ok ha] at h; cases h; exact .wrbuf addr data rfl ha
    · rw [exec_wrbuf_fault ha] at h; cases h
      exact .insufficient (.inr (.inl ⟨addr, data, rfl, ha⟩))
  | rdbuf addr =>
    rcases Nat.lt_or_ge addr Config.bufLen with ha | ha
    · cases hy : s.buf.read addr with
      | none => rw [exec_rdbuf_refused ha hy] at h; cases h
      | some y =>
        rw [exec_rdbuf_ok ha hy] at h; cases h
        exact .answer _ (by simp [ha, hy])
    · rw [exec_rdbuf_fault ha] at h; cases h
      exact .insufficient (.inr (.inr ⟨addr, rfl, ha⟩))
  | compute start len =>
    by_cases hp : s.poly = 0#32
    · rw [exec_compute_invalid hp] at h; cases h; exact .invalid start len rfl hp
    · rcases Nat.lt_or_ge Config.bufLen (start + len) with hr | hr
      · rw [exec_compute_insufficient hp hr] at h; cases h
        exact .insufficient (.inl ⟨start, len, rfl, hp, hr⟩)
      · cases hy : readRange s.buf start len with
        | error a => rw [exec_compute_refused hp hr hy] at h; cases h
        | ok ys => rw [exec_compute_ok hp hr hy] at h; cases h; exact .compute start len ys rfl hp hr hy

/-- When `exec` refuses: RDBUF of an unwritten byte, or COMPUTE, its checks passed, over an unwritten byte (R54). -/
theorem exec_refused {i : Instr} {s : State} {r : Refusal} (h : exec i s = .refused r) :
    (∃ addr, i = .rdbuf addr ∧ addr < Config.bufLen ∧ s.buf.read addr = none ∧ r = .unwrittenByte addr) ∨
    (∃ start len a, i = .compute start len ∧ s.poly ≠ 0#32 ∧ start + len ≤ Config.bufLen ∧
      readRange s.buf start len = .error a ∧ r = .unwrittenByte a) := by
  cases i with
  | ldpoly imm => cases h
  | ldreg imm => cases h
  | rdcrc => cases h
  | rdreg => cases h
  | rdpoly => cases h
  | rdstat => cases h
  | wrbuf addr data =>
    rcases Nat.lt_or_ge addr Config.bufLen with ha | ha
    · rw [exec_wrbuf_ok ha] at h; cases h
    · rw [exec_wrbuf_fault ha] at h; cases h
  | rdbuf addr =>
    rcases Nat.lt_or_ge addr Config.bufLen with ha | ha
    · cases hy : s.buf.read addr with
      | none => rw [exec_rdbuf_refused ha hy] at h; cases h; exact .inl ⟨addr, rfl, ha, hy, rfl⟩
      | some y => rw [exec_rdbuf_ok ha hy] at h; cases h
    · rw [exec_rdbuf_fault ha] at h; cases h
  | compute start len =>
    by_cases hp : s.poly = 0#32
    · rw [exec_compute_invalid hp] at h; cases h
    · rcases Nat.lt_or_ge Config.bufLen (start + len) with hr | hr
      · rw [exec_compute_insufficient hp hr] at h; cases h
      · cases hy : readRange s.buf start len with
        | error a =>
          rw [exec_compute_refused hp hr hy] at h; cases h
          exact .inr ⟨start, len, a, rfl, hp, hr, hy, rfl⟩
        | ok ys => rw [exec_compute_ok hp hr hy] at h; cases h

/-- No command ends the machine: the block's faults are answers (R148, R150). -/
theorem exec_ne_fault (i : Instr) (s : State) (f : Fault) : exec i s ≠ .fault f := by
  intro h
  cases i with
  | ldpoly imm => cases h
  | ldreg imm => cases h
  | rdcrc => cases h
  | rdreg => cases h
  | rdpoly => cases h
  | rdstat => cases h
  | wrbuf addr data =>
    simp only [exec, execWrbuf, execWrbufWith] at h
    split at h <;> cases h
  | rdbuf addr =>
    simp only [exec, execRdbuf, execRdbufWith] at h
    split at h <;> cases h
  | compute start len =>
    simp only [exec, execCompute, execComputeWith] at h
    split at h
    · cases h
    · split at h
      · cases h
      · split at h <;> cases h

theorem step_idle {s : State} (h : s.inputs = []) : step s = .next s := by simp [step, takeStep, h]

theorem step_input {s : State} {x : HostInput} {rest : List HostInput} (h : s.inputs = x :: rest) :
    step s = runInput exec x { s with inputs := rest } := by simp [step, takeStep, h]

/-- A command word that decodes runs as its command. -/
theorem step_command {s : State} {c : CmdWord} {rest : List HostInput} {i : Instr}
    (h : s.inputs = .command c :: rest) (hd : decode c = some i) :
    step s = exec i { s with inputs := rest } := by
  rw [step_input h]; simp [runInput, runWord, hd]

/-- A command word that does not decode raises IllegalCommand (R64, R143). -/
theorem step_illegal {s : State} {c : CmdWord} {rest : List HostInput}
    (h : s.inputs = .command c :: rest) (hd : decode c = none) :
    step s = .next (raise .illegalCommand false { s with inputs := rest }) := by
  rw [step_input h]; simp [runInput, runWord, hd]

/-- Everything a step can do when it answers a next state. -/
inductive StepEffect (s : State) : State → Prop
  | idle (h : s.inputs = []) : StepEffect s s
  | command (c : CmdWord) (rest : List HostInput) (i : Instr) (t : State) (h : s.inputs = .command c :: rest)
      (hd : decode c = some i) (he : Effect i { s with inputs := rest } t) : StepEffect s t
  | illegal (c : CmdWord) (rest : List HostInput) (h : s.inputs = .command c :: rest) (hd : decode c = none) :
      StepEffect s (raise .illegalCommand false { s with inputs := rest })
  | reset (x : HostInput) (rest : List HostInput) (h : s.inputs = x :: rest)
      (hx : x = .reset ∨ ∃ c, x = .resetDuring c) : StepEffect s (applyReset { s with inputs := rest })

/-- The inversion lemma of `step`. -/
theorem step_next {s t : State} (h : step s = .next t) : StepEffect s t := by
  cases hi : s.inputs with
  | nil => rw [step_idle hi] at h; cases h; exact .idle hi
  | cons x rest =>
    cases x with
    | command c =>
      cases hd : decode c with
      | none => rw [step_illegal hi hd] at h; cases h; exact .illegal c rest hi hd
      | some i => rw [step_command hi hd] at h; exact .command c rest i t hi hd (exec_next h)
    | reset => rw [step_input hi] at h; cases h; exact .reset _ rest hi (.inl rfl)
    | resetDuring c => rw [step_input hi] at h; cases h; exact .reset _ rest hi (.inr ⟨c, rfl⟩)

/-- Every command that answers a next state takes no input and gives exactly one response. -/
theorem Effect.streams {i : Instr} {s t : State} (h : Effect i s t) :
    t.inputs = s.inputs ∧ ∃ r, t.rsps = s.rsps ++ [r] := by
  cases h <;> exact ⟨rfl, _, rfl⟩

/-- A command keeps the canonical form of BUF. -/
theorem Effect.wf {i : Instr} {s t : State} (h : Effect i s t) (hw : s.buf.wf = true) : t.buf.wf = true := by
  cases h with
  | wrbuf addr data hi ha => exact Memory.write_risingFrom hw (Nat.zero_le _) ha
  | _ => exact hw

end Sys2Proof.Machine
end

