-- ==== Sys2Proof/Laws/Driver.lean ====
section
/-! SUPPORT. The laws of the Mode Driver's operations: the words it presents, one issued command, and that writing a
region and running its chunks go to their ends. -/

namespace Sys2Proof.Machine

/-! ### The words the driver presents decode to its commands -/

theorem decode_encode_ldpoly (imm : Word) : decode (encode (.ldpoly imm)) = some (.ldpoly imm) := by
  have hi := imm.isLt
  have h1 : opField (encode (.ldpoly imm)) = 0x1#4 := by
    rw [← BitVec.toNat_inj, opField_toNat, encode_ldpoly_toNat]; simp; omega
  have h2 : immField (encode (.ldpoly imm)) = imm := by
    rw [← BitVec.toNat_inj, immField_toNat, encode_ldpoly_toNat]; omega
  simp [decode, h1, h2]

theorem decode_encode_ldreg (imm : Word) : decode (encode (.ldreg imm)) = some (.ldreg imm) := by
  have hi := imm.isLt
  have h1 : opField (encode (.ldreg imm)) = 0x2#4 := by
    rw [← BitVec.toNat_inj, opField_toNat, encode_ldreg_toNat]; simp; omega
  have h2 : immField (encode (.ldreg imm)) = imm := by
    rw [← BitVec.toNat_inj, immField_toNat, encode_ldreg_toNat]; omega
  simp [decode, h1, h2]

theorem decode_encode_compute {start len : Nat} (hs : start < 65536) (hl : len < 65536) :
    decode (encode (.compute start len)) = some (.compute start len) := by
  have h1 : opField (encode (.compute start len)) = 0x3#4 := by
    rw [← BitVec.toNat_inj, opField_toNat, encode_compute_toNat]; simp; omega
  have h2 : highField (encode (.compute start len)) = start := by rw [highField_eq, encode_compute_toNat]; omega
  have h3 : lenField (encode (.compute start len)) = len := by rw [lenField_eq, encode_compute_toNat]; omega
  simp [decode, h1, h2, h3]

theorem decode_encode_wrbuf {addr : Nat} (ha : addr < 65536) (data : Byte) :
    decode (encode (.wrbuf addr data)) = some (.wrbuf addr data) := by
  have hd := data.isLt
  have h1 : opField (encode (.wrbuf addr data)) = 0x8#4 := by
    rw [← BitVec.toNat_inj, opField_toNat, encode_wrbuf_toNat]; simp; omega
  have h2 : highField (encode (.wrbuf addr data)) = addr := by rw [highField_eq, encode_wrbuf_toNat]; omega
  have h3 : dataField (encode (.wrbuf addr data)) = data := by
    rw [← BitVec.toNat_inj, dataField_toNat, encode_wrbuf_toNat]; omega
  have h4 : zeroFieldB (encode (.wrbuf addr data)) = 0#8 := by
    rw [← BitVec.toNat_inj, zeroFieldB_toNat, encode_wrbuf_toNat]; simp; omega
  simp [decode, h1, h2, h3, h4]

/-! ### One command issued -/

theorem stepWith_presentWord {i : Instr} (hd : decode (encode i) = some i) (P : Config.Params) (s : State) :
    stepWith P (presentWord (encode i) s) = execWith P i s := by
  simp [stepWith, takeStep, presentWord, runInput, runWord, hd]

/-- A command answered OK gives its data (R123). -/
theorem issue_ok {P : Config.Params} {i : Instr} {s t : State} {v : Word} (hd : decode (encode i) = some i)
    (he : execWith P i s = .next t) (hr : t.rsps = s.rsps ++ [.ok v]) : issue P i s = .done v t := by
  simp [issue, stepWith_presentWord hd, he, hr]

/-- A command answered with a fault stops the procedure (R157). -/
theorem issue_fault {P : Config.Params} {i : Instr} {s t : State} {f : Fault} (hd : decode (encode i) = some i)
    (he : execWith P i s = .next t) (hr : t.rsps = s.rsps ++ [.fault f]) : issue P i s = .aborted f t := by
  simp [issue, stepWith_presentWord hd, he, hr]

theorem issue_ldpoly (P : Config.Params) (imm : Word) (s : State) :
    issue P (.ldpoly imm) s = .done 0#32 (respond 0#32 { s with poly := imm }) :=
  issue_ok (decode_encode_ldpoly imm) rfl rfl

theorem issue_ldreg (P : Config.Params) (imm : Word) (s : State) :
    issue P (.ldreg imm) s = .done 0#32 (respond 0#32 { s with reg := imm }) :=
  issue_ok (decode_encode_ldreg imm) rfl rfl

theorem issue_wrbuf {P : Config.Params} {addr : Nat} (h : addr < P.bufLen) (ha : addr < 65536) (data : Byte)
    (s : State) :
    issue P (.wrbuf addr data) s = .done 0#32 (respond 0#32 { s with buf := s.buf.write addr data }) :=
  issue_ok (decode_encode_wrbuf ha data) (execWrbufWith_ok h data s) rfl

/-! ### A region -/

/-- Writing bytes that fit the buffer goes to its end: they are there, no byte below them moves, one OK(0) is answered
for each, and nothing else changes. -/
theorem writeBytes_done {P : Config.Params} (hP : P.bufLen ≤ 65535) (data : List Byte) (a : Nat) (s : State)
    (h : a + data.length ≤ P.bufLen) :
    ∃ t, writeBytes P a data s = .done () t ∧ t.poly = s.poly ∧ t.reg = s.reg ∧ t.crc = s.crc ∧
      t.status = s.status ∧ t.inputs = s.inputs ∧ t.rsps = s.rsps ++ List.replicate data.length (.ok 0#32) ∧
      (∀ k (hk : k < data.length), t.buf.read (a + k) = some data[k]) ∧ ∀ b, b < a → t.buf.read b = s.buf.read b := by
  induction data generalizing a s with
  | nil => exact ⟨s, rfl, rfl, rfl, rfl, rfl, rfl, by simp, by simp, fun _ _ => rfl⟩
  | cons y ys ih =>
    simp only [List.length_cons] at h
    obtain ⟨t, h1, h2, h3, h4, h5, h6, h6', h7, h8⟩ :=
      ih (a + 1) (respond 0#32 { s with buf := s.buf.write a y }) (by omega)
    refine ⟨t, ?_, h2, h3, h4, h5, h6, ?_, fun k hk => ?_, fun b hb => ?_⟩
    · simp only [writeBytes, issue_wrbuf (show a < P.bufLen by omega) (show a < 65536 by omega)]
      exact h1
    · rw [h6', respond_rsps, List.length_cons, List.replicate_succ, List.append_assoc]; rfl
    · cases k with
      | zero => rw [Nat.add_zero, h8 a (by omega)]; exact Memory.read_write_same _ _ _
      | succ k =>
        have := h7 k (by simpa using hk)
        rw [show a + (k + 1) = a + 1 + k by omega, this]; rfl
    · rw [h8 b (by omega)]
      exact Memory.read_write_other _ _ (by omega)

/-- Running chunks goes to its end where the polynomial is not 0 and every chunk lies in the buffer, over written
bytes. -/
theorem runChunks_done {P : Config.Params} (hP : P.bufLen ≤ 65535) (cs : List (Nat × Nat)) (s : State)
    (hp : s.poly ≠ 0#32)
    (hc : ∀ c ∈ cs, c.1 + c.2 ≤ P.bufLen ∧ ∀ k, k < c.2 → s.buf.read (c.1 + k) ≠ none) :
    ∃ events t, runChunks P cs s = .done events t ∧ events.map Prod.fst = cs := by
  induction cs generalizing s with
  | nil => exact ⟨[], s, rfl, rfl⟩
  | cons c cs ih =>
    rw [List.forall_mem_cons] at hc
    obtain ⟨⟨hr, hw⟩, hcs⟩ := hc
    obtain ⟨ys, hy⟩ := readRange_ok_of_written hw
    obtain ⟨events, t, h1, h2⟩ := ih (finishCompute ys s) hp hcs
    refine ⟨(c, drain (blockstep s.reg ys s.poly) s.poly) :: events, t, ?_, by simp [h2]⟩
    rw [runChunks, issue_ok (decode_encode_compute (by omega) (by omega)) (execComputeWith_ok hp hr hy) rfl,
      DriverOutcome.andThen, h1]
    rfl

end Sys2Proof.Machine
end

