-- ==== Sys2Proof/Laws/PerInstr.lean ====
section
/-! SUPPORT. What holds of every command as syntax, one lemma per constructor. Family `TableRow`: the word of a command
selects the row of the opcode map that has the command's mnemonic (spec 30_encoding.md R63), for every value of its
operands. -/

namespace Sys2Proof.Laws.TableRow

/-- The command's word selects a row of its own mnemonic. -/
def Statement (i : Instr) : Prop := ∃ row ∈ opcodeMap, row.mnemonic = i.mnemonic ∧ row.selects (encode i) = true

/-- A word of two parts under a mask of two parts. -/
theorem append_and_append {m n : Nat} (a c : BitVec m) (b d : BitVec n) :
    (a ++ b) &&& (c ++ d) = (a &&& c) ++ (b &&& d) := by
  ext k hk
  simp only [BitVec.getElem_and, BitVec.getElem_append]
  split <;> simp

theorem ldpoly (imm : Word) : Statement (.ldpoly imm) := by
  refine ⟨⟨"LDPOLY", 0xF00000000#36, 0x100000000#36⟩, by simp [opcodeMap], rfl, ?_⟩
  have h := append_and_append 0x1#4 0xF#4 imm 0#32
  rw [BitVec.and_zero] at h
  exact beq_iff_eq.mpr h

theorem ldreg (imm : Word) : Statement (.ldreg imm) := by
  refine ⟨⟨"LDREG", 0xF00000000#36, 0x200000000#36⟩, by simp [opcodeMap], rfl, ?_⟩
  have h := append_and_append 0x2#4 0xF#4 imm 0#32
  rw [BitVec.and_zero] at h
  exact beq_iff_eq.mpr h

theorem compute (start len : Nat) : Statement (.compute start len) := by
  refine ⟨⟨"COMPUTE", 0xF00000000#36, 0x300000000#36⟩, by simp [opcodeMap], rfl, ?_⟩
  refine beq_iff_eq.mpr ((append_and_append (0x3#4 ++ BitVec.ofNat 16 start) (0xF#4 ++ 0#16) _ 0#16).trans ?_)
  rw [append_and_append, BitVec.and_zero, BitVec.and_zero]
  rfl

theorem rdcrc : Statement .rdcrc :=
  ⟨⟨"RDCRC", 0xFFFFFFFFF#36, 0x400000000#36⟩, by simp [opcodeMap], rfl, by decide⟩

theorem rdreg : Statement .rdreg :=
  ⟨⟨"RDREG", 0xFFFFFFFFF#36, 0x500000000#36⟩, by simp [opcodeMap], rfl, by decide⟩

theorem rdpoly : Statement .rdpoly :=
  ⟨⟨"RDPOLY", 0xFFFFFFFFF#36, 0x600000000#36⟩, by simp [opcodeMap], rfl, by decide⟩

theorem rdstat : Statement .rdstat :=
  ⟨⟨"RDSTAT", 0xFFFFFFFFF#36, 0x700000000#36⟩, by simp [opcodeMap], rfl, by decide⟩

theorem wrbuf (addr : Nat) (data : Byte) : Statement (.wrbuf addr data) := by
  refine ⟨⟨"WRBUF", 0xF0000FF00#36, 0x800000000#36⟩, by simp [opcodeMap], rfl, ?_⟩
  refine beq_iff_eq.mpr
    ((append_and_append (0x8#4 ++ BitVec.ofNat 16 addr ++ 0#8) (0xF#4 ++ 0#16 ++ 0xFF#8) data 0#8).trans ?_)
  rw [append_and_append, append_and_append, BitVec.and_zero, BitVec.and_zero]
  rfl

theorem rdbuf (addr : Nat) : Statement (.rdbuf addr) := by
  refine ⟨⟨"RDBUF", 0xF0000FFFF#36, 0x900000000#36⟩, by simp [opcodeMap], rfl, ?_⟩
  refine beq_iff_eq.mpr ((append_and_append (0x9#4 ++ BitVec.ofNat 16 addr) (0xF#4 ++ 0#16) 0#16 0xFFFF#16).trans ?_)
  rw [append_and_append, BitVec.and_zero]
  rfl

end Sys2Proof.Laws.TableRow
end

