-- ==== Sys2Proof/Tests/Slice0.lean ====
section
/-! SUPPORT. The model's own tests, their expected results from the spec's vectors and examples (V-... names a vector of
95_test_vectors.md, P... a program of it), and for every statement with hypotheses a state and operands that meet them
together. -/

namespace Sys2Proof.Tests

open Sys2Proof.Machine Sys2Proof.Safety

/-! ### Helpers -/

/-- The next state of an outcome. -/
def nextOf (o : Host.Outcome State Fault Refusal) : Option State :=
  match o with
  | .next t => some t
  | .fault _ => none
  | .refused _ => none

def refusalOf (o : Host.Outcome State Fault Refusal) : Option Refusal :=
  match o with
  | .next _ => none
  | .fault _ => none
  | .refused r => some r

/-- The last response, as its 36-bit word. -/
def answer (o : Host.Outcome State Fault Refusal) : Option RspWord :=
  (nextOf o).bind fun t => t.rsps.getLast?.map Response.word

/-- REG, CRC and the STATUS word after. -/
def after (o : Host.Outcome State Fault Refusal) : Option (Word × Word × Word) :=
  (nextOf o).map fun t => (t.reg, t.crc, t.status.word)

/-- The bytes `ABC` at BUF[0..2], POLY = 0xA053 (P5 after step 3). -/
def abc : State := { State.reset with poly := 0xA053#32, buf := [(0, 0x41#8), (1, 0x42#8), (2, 0x43#8)] }

/-- `abc` with a polynomial of its own. -/
def abcPoly (p : Word) : State := { abc with poly := p }

/-- A state with one input pending. -/
def pending (x : HostInput) (s : State) : State := { s with inputs := [x] }

/-- A state with every flag set. -/
def flagged : State := { abc with status := ⟨true, true, true, true⟩ }

/-! ### WellFormed: for each check an ill-formed term, refused -/

theorem test_illformed_compute_start : (Instr.compute 65536 0).wellFormed = false := by decide
theorem test_illformed_compute_len : (Instr.compute 0 65536).wellFormed = false := by decide
theorem test_illformed_wrbuf : (Instr.wrbuf 65536 0#8).wellFormed = false := by decide
theorem test_illformed_rdbuf : (Instr.rdbuf 65536).wellFormed = false := by decide
theorem test_illformed_no_word : assembleInstr (.rdbuf 65536) = none := by decide
theorem test_wellformed_edge : (Instr.compute 65535 65535).wellFormed = true := by decide

/-! ### Decode: each constructor by a word written out from R61 and R63, bit 35 first -/

/-- `0001` and the 32 bits of 0xA053 (V-E1). -/
theorem test_decode_ldpoly :
    decode 0b000100000000000000001010000001010011#36 = some (.ldpoly 0xA053#32) := by decide
/-- V-E5. -/
theorem test_decode_ldreg :
    decode 0b001000000000000000000001001000110100#36 = some (.ldreg 0x1234#32) := by decide
/-- `0011`, start 0x01C0, len 0x0038 (V-E7). -/
theorem test_decode_compute :
    decode 0b001100000001110000000000000000111000#36 = some (.compute 448 56) := by decide
/-- V-E12 to V-E15. -/
theorem test_decode_rdcrc : decode 0b010000000000000000000000000000000000#36 = some .rdcrc := by decide
theorem test_decode_rdreg : decode 0b010100000000000000000000000000000000#36 = some .rdreg := by decide
theorem test_decode_rdpoly : decode 0b011000000000000000000000000000000000#36 = some .rdpoly := by decide
theorem test_decode_rdstat : decode 0b011100000000000000000000000000000000#36 = some .rdstat := by decide
/-- `1000`, addr 0x01FF, eight zeros, data 0xFF (V-E17). -/
theorem test_decode_wrbuf :
    decode 0b100000000001111111110000000011111111#36 = some (.wrbuf 511 0xFF#8) := by decide
/-- `1001`, addr 0x0258, sixteen zeros (V-E20). -/
theorem test_decode_rdbuf :
    decode 0b100100000010010110000000000000000000#36 = some (.rdbuf 600) := by decide
/-- V-E30 to V-E41. -/
theorem test_decode_illegal :
    [0x000000000#36, 0x00000A053#36, 0xA00000000#36, 0xFFFFFFFFF#36, 0x400000001#36, 0x580000000#36, 0x600010000#36,
      0x7FFFFFFFF#36, 0x800050141#36, 0x80005FF41#36, 0x900050001#36, 0x900058000#36].map decode
      = List.replicate 12 none := by decide
/-- V-E1 to V-E20, the encoder. -/
theorem test_encode :
    [Instr.ldpoly 0xA053#32, .ldreg 0x1234#32, .compute 500 20, .compute 65535 65535, .rdcrc, .rdreg, .rdpoly, .rdstat,
      .wrbuf 5 0x41#8, .rdbuf 5].map encode
      = [0x10000A053#36, 0x200001234#36, 0x301F40014#36, 0x3FFFFFFFF#36, 0x400000000#36, 0x500000000#36, 0x600000000#36,
        0x700000000#36, 0x800050041#36, 0x900050000#36] := by decide

theorem test_table_word_illegal : decodeTableWord 40 0x400000001 = none := by decide
theorem test_table_word_too_wide : decodeTableWord 40 0xF400000000 = none := by decide
/-- The word presented is the one the next step runs. -/
theorem test_fetch_word : answer (step (abc.withFetchWord 40 0x600000000)) = some 0x00000A053#36 := by decide

/-! ### Commands: at most two tests each -/

/-- V-A4. -/
theorem test_ldpoly_top :
    (nextOf (exec (.ldpoly 0xFFFFFFFF#32) State.reset)).map (fun t => (t.poly, t.status.word)) =
      some (0xFFFFFFFF#32, 0#32) := by decide
/-- V-A2: the zero polynomial is accepted. -/
theorem test_ldpoly_zero : answer (exec (.ldpoly 0#32) abc) = some 0#36 := by decide
/-- V-A16: CRC and CRCV stay. -/
theorem test_ldreg_keeps_crc :
    after (exec (.ldreg 0#32) { abc with reg := 0xFD1#32, crc := 0x40A7#32, status := ⟨true, false, false, false⟩ }) =
      some (0#32, 0x40A7#32, 1#32) := by decide
/-- V-A13, V-A14: CRC is the drained value, REG the carried one. -/
theorem test_rdcrc : answer (exec .rdcrc { abc with reg := 0xFD1#32, crc := 0x40A7#32 }) = some 0x0000040A7#36 := by
  decide
theorem test_rdreg : answer (exec .rdreg { abc with reg := 0xFD1#32, crc := 0x40A7#32 }) = some 0x000000FD1#36 := by
  decide
/-- V-A6. -/
theorem test_rdpoly : answer (exec .rdpoly abc) = some 0x00000A053#36 := by decide
/-- The places of the four flags (R24): one at a time. -/
theorem test_rdstat_places :
    [(⟨true, false, false, false⟩ : Status), ⟨false, true, false, false⟩, ⟨false, false, true, false⟩,
      ⟨false, false, false, true⟩].map Status.word = [1#32, 2#32, 4#32, 8#32] := by decide
/-- V-A27. -/
theorem test_rdstat : answer (exec .rdstat flagged) = some 0x00000000F#36 := by decide
/-- V-A20, V-A21: the byte lands at its address, the last one too. -/
theorem test_wrbuf :
    (nextOf (exec (.wrbuf 511 0x7E#8) abc)).map (fun t => (t.buf.read 511, t.buf.read 510, t.buf.read 2)) =
      some (some 0x7E#8, none, some 0x43#8) := by decide
/-- V-A22. -/
theorem test_wrbuf_past : answer (exec (.wrbuf 512 0#8) abc) = some 0x200000000#36 := by decide
/-- V-A19, V-A25. -/
theorem test_rdbuf : answer (exec (.rdbuf 1) abc) = some 0x000000042#36 := by decide
theorem test_rdbuf_unwritten : refusalOf (exec (.rdbuf 5) abc) = some (.unwrittenByte 5) := by decide
/-- V-S1, V-C9: 64 times `A`. -/
theorem test_compute_reference_vector :
    after (exec (.compute 0 64) { State.reset with
      poly := 0xA053#32, buf := (List.range 64).map fun a => (a, 0x41#8) }) =
      some (0xFD1#32, 0x40A7#32, 1#32) := by decide +kernel
/-- P3, steps 2 and 4: the order of the checks. -/
theorem test_compute_priority :
    (answer (exec (.compute 500 20) State.reset), answer (exec (.compute 500 20) abc)) =
      (some 0x100000000#36, some 0x200000000#36) := by decide

/-! ### The divider -/

/-- V-M1 to V-M10. -/
theorem test_deg :
    [1#32, 2#32, 3#32, 0x107#32, 0x8000#32, 0xA053#32, 0x11021#32, 0x80000000#32, 0x80000057#32, 0xFFFFFFFF#32].map deg =
      [0, 1, 1, 8, 15, 15, 16, 31, 31, 31] := by decide
/-- V-M18, V-M15, V-M23, V-M25, V-M27. -/
theorem test_bitstep :
    [bitstep 0x4142#32 false 0xA053#32, bitstep 0x3FFF#32 true 0xA053#32, bitstep 0x7FFFFFFF#32 true 0x80000057#32,
      bitstep 0x80000001#32 true 1#32, bitstep 1#32 false 3#32] =
      [0x22D7#32, 0x7FFF#32, 0x7FFFFFA8#32, 2#32, 1#32] := by decide
/-- V-M29c. -/
theorem test_bytestep : bytestep 0x4142#32 0x43#8 0xA053#32 = 0x633B#32 := by decide
/-- V-M32, V-M34. -/
theorem test_drain :
    (drain 0x41#32 0xA053#32, drain 0x7FFF#32 0xA053#32) = (0x10BC#32, 0x5ABC#32) := by decide +kernel
/-- R110's example over the byte 0x00. -/
theorem test_high_register :
    drain (blockstep 0xFFFFFFFF#32 [0#8] 0xA053#32) 0xA053#32 = 0x30E3#32 := by decide +kernel

/-! ### The host -/

/-- R124's examples. -/
theorem test_hex8 :
    (hex8 0x40A7#32, hex8 0xC0005ABC#32) =
      ([0x30#8, 0x30#8, 0x30#8, 0x30#8, 0x34#8, 0x30#8, 0x61#8, 0x37#8],
       [0x63#8, 0x30#8, 0x30#8, 0x30#8, 0x35#8, 0x61#8, 0x62#8, 0x63#8]) := by decide
/-- `WRBUF 5, 'A'` and a comment (V-E16). -/
theorem test_assemble_wrbuf :
    assembleLine ['W', 'R', 'B', 'U', 'F', ' ', '5', ',', ' ', apostrophe, 'A', apostrophe, ' ', ';', 'x'] =
      some [0x800050041#36] := by decide +kernel
/-- `RDBUF 65536`: an operand that does not fit (R68). -/
theorem test_assemble_too_large :
    assembleLine ['R', 'D', 'B', 'U', 'F', ' ', '6', '5', '5', '3', '6'] = none := by decide +kernel
/-- `FILL 0, 3, 'A'` (V-E61). -/
theorem test_assemble_fill :
    assembleLine ['F', 'I', 'L', 'L', ' ', '0', ',', '3', ',', apostrophe, 'A', apostrophe] =
      some [0x800000041#36, 0x800010041#36, 0x800020041#36] := by decide +kernel
/-- `WRSTR 0, "ABC"` (V-E63). -/
theorem test_assemble_wrstr :
    assembleLine ['W', 'R', 'S', 'T', 'R', ' ', '0', ',', doubleQuote, 'A', 'B', 'C', doubleQuote] =
      some [0x800000041#36, 0x800010042#36, 0x800020043#36] := by decide +kernel
/-- A response word in nine digits (V-E52). -/
theorem test_response_text :
    wordText (Response.ok 0xC0005ABC#32).word = ['0', 'C', '0', '0', '0', '5', 'A', 'B', 'C'] := by decide
/-- R129: short data is filled up to 504 bytes. -/
theorem test_pad : (padRegion [0x68#8]).length = 504 ∧ (padRegion [0x68#8])[503]? = some 0x2E#8 := by decide +kernel

/-! ### Witnesses: for every statement with hypotheses, a state and operands that meet them together, each clause at
the edge of its range -/

/-- What `RangeHolds` asks, from a range read. -/
theorem rangeHolds_of_read {s : State} {a : Nat} {ys : List Byte} (h : readRange s.buf a ys.length = .ok ys) :
    RangeHolds s a ys := (readRange_eq_ok.mp h).2

theorem abc_holds : RangeHolds abc 0 [0x41#8, 0x42#8, 0x43#8] := rangeHolds_of_read rfl
theorem ab_holds : RangeHolds abc 0 [0x41#8, 0x42#8] := rangeHolds_of_read rfl
theorem c_holds : RangeHolds abc 2 [0x43#8] := rangeHolds_of_read rfl
theorem abc_holds_nothing_past_the_end : RangeHolds abc 512 [] := rangeHolds_of_read rfl

/-- A word at each edge of each clause of the decode function. -/
theorem test_witness_DecodeAndEncodeAreInverse :
    (0x000000000#36).toNat = 0 * 2 ^ 32 + 0 ∧ (0x1FFFFFFFF#36).toNat = 1 * 2 ^ 32 + 0xFFFFFFFF ∧
    (0x3FFFF0000#36).toNat = 3 * 2 ^ 32 + 0xFFFF0000 ∧ (0x800000100#36).toNat = 8 * 2 ^ 32 + 0x100 ∧
    (0x9FFFF0000#36).toNat = 9 * 2 ^ 32 + 0xFFFF0000 ∧ (0xFFFFFFFFF#36).toNat = 15 * 2 ^ 32 + 0xFFFFFFFF ∧
    (Instr.wrbuf 65535 0xFF#8).wellFormed = true ∧
    decode 0x9FFFF0000#36 = some (.rdbuf 65535) := by decide

theorem test_witness_IllegalWordsRaiseIllegalCommand :
    (0x0FFFFFFFF#36).toNat = 0 * 2 ^ 32 + 0xFFFFFFFF ∧ decode 0x0FFFFFFFF#36 = none ∧
    (0xA00000000#36).toNat = 10 * 2 ^ 32 + 0 ∧ decode 0xA00000000#36 = none ∧
    decode 0x7FFFFFFFF#36 = none ∧ decode 0x80000FF00#36 = none ∧ decode 0x90000FFFF#36 = none ∧
    (pending (.command 0x0FFFFFFFF#36) abc).inputs = [.command 0x0FFFFFFFF#36] := by decide

theorem test_witness_AssembledWordsDecodeBack :
    assembleAll [.compute 65535 65535, .rdcrc] = some [0x3FFFFFFFF#36, 0x400000000#36] ∧
    assembleAll [.rdcrc, .compute 65536 0] = none := by decide

theorem test_witness_FillWritesItsRange :
    0 + 512 ≤ Config.bufLen ∧ 511 + 1 ≤ Config.bufLen ∧ 512 + 0 ≤ Config.bufLen := by decide

theorem test_witness_StepRunsTheDecodedCommand :
    (pending (.command 0x500000000#36) abc).inputs = [.command 0x500000000#36] ∧
    decode 0x500000000#36 = some .rdreg ∧ State.reset.inputs = [] ∧ (Instr.rdbuf 65535).wellFormed = true := by decide

theorem test_witness_StreamRunsTheCommandsInOrder :
    (∀ i ∈ [Instr.ldreg 5#32, .rdreg], i.wellFormed = true) ∧
    { abc with inputs := [HostInput.command 0x200000005#36, .command 0x500000000#36, .reset] }.inputs =
      [Instr.ldreg 5#32, .rdreg].map (fun i => HostInput.command (encode i)) ++ [.reset] := by decide

/-- A COMPUTE that is answered OK, over written bytes; a fault; an illegal word. -/
theorem test_witness_OneResponsePerCommand :
    (∃ t, step (pending (.command 0x300000003#36) abc) = .next t) ∧
    (∃ t, step (pending (.command 0x301F40014#36) abc) = .next t) ∧
    (∃ t, step (pending (.command 0#36) abc) = .next t) ∧
    decode 0x300000003#36 = some (.compute 0 3) :=
  ⟨⟨_, rfl⟩, ⟨_, rfl⟩, ⟨_, rfl⟩, by decide⟩

/-- One state for each status: 0, 1, 2 by each of its three causes, 3. -/
theorem test_witness_FaultsAreRaisedExactlyOnTheirCause :
    (∃ t r, step (pending (.command 0x300000003#36) abc) = .next t ∧ t.rsps = [r] ∧ r.st = 0#4) ∧
    (∃ t r, step (pending (.command 0x3FFFFFFFF#36) State.reset) = .next t ∧ t.rsps = [r] ∧ r.st = 1#4) ∧
    (∃ t r, step (pending (.command 0x302000001#36) abc) = .next t ∧ t.rsps = [r] ∧ r.st = 2#4) ∧
    (∃ t r, step (pending (.command 0x8020000FF#36) abc) = .next t ∧ t.rsps = [r] ∧ r.st = 2#4) ∧
    (∃ t r, step (pending (.command 0x902000000#36) abc) = .next t ∧ t.rsps = [r] ∧ r.st = 2#4) ∧
    (∃ t r, step (pending (.command 0#36) abc) = .next t ∧ t.rsps = [r] ∧ r.st = 3#4) :=
  ⟨⟨_, _, rfl, rfl, by decide⟩, ⟨_, _, rfl, rfl, by decide⟩, ⟨_, _, rfl, rfl, by decide⟩, ⟨_, _, rfl, rfl, by decide⟩,
    ⟨_, _, rfl, rfl, by decide⟩, ⟨_, _, rfl, rfl, by decide⟩⟩

/-- A COMPUTE answered OK, and one that faults. -/
theorem test_witness_RdcrcAnswersTheResult :
    (∃ t, exec (.compute 0 3) abc = .next t) ∧ (∃ t, exec (.compute 512 1) abc = .next t) := ⟨⟨_, rfl⟩, ⟨_, rfl⟩⟩

/-- A COMPUTE without fault: over three bytes, and over none at the end of the buffer. -/
theorem test_witness_RdregAnswersTheCarriedRegister :
    (RangeHolds abc 0 [0x41#8, 0x42#8, 0x43#8] ∧ ∃ t, exec (.compute 0 3) abc = .next t ∧ t.status.crcv = true) ∧
    (RangeHolds abc 512 [] ∧ ∃ t, exec (.compute 512 0) abc = .next t ∧ t.status.crcv = true) :=
  ⟨⟨abc_holds, _, rfl, rfl⟩, ⟨abc_holds_nothing_past_the_end, _, rfl, rfl⟩⟩

theorem test_witness_RdpolyAnswersThePolynomial :
    (∀ i ∈ [Instr.rdreg, .compute 0 2], ∀ v, i ≠ .ldpoly v) ∧
    ∃ t, runCommands [.ldpoly 0xA053#32, .rdreg, .compute 0 2] abc = .next t :=
  ⟨by simp, _, rfl⟩

theorem test_witness_WrbufWritesOneByte : 511 < Config.bufLen ∧ Config.bufLen ≤ 512 := by decide

theorem test_witness_RdbufReadsOneByte :
    (511 < Config.bufLen ∧ { abc with buf := [(511, 7#8)] }.buf.read 511 = some 7#8) ∧ Config.bufLen ≤ 512 ∧
    (511 < Config.bufLen ∧ abc.buf.read 511 = none) := by decide

theorem test_witness_BytesHoldTheLatestWrite :
    ∃ t, runCommands [.wrbuf 0 1#8, .wrbuf 0 2#8, .wrbuf 512 3#8] abc = .next t ∧ t.buf.read 0 = some 2#8 :=
  ⟨_, rfl, by decide⟩

theorem test_witness_RepeatingACommand :
    (∃ t, exec (.rdbuf 1) abc = .next t ∧ t.rsps = abc.rsps ++ [.ok 0x42#32]) ∧
    (∃ t, exec (.wrbuf 511 1#8) abc = .next t) ∧
    (RangeHolds abc 2 [0x43#8] ∧ ∃ t u, exec (.compute 2 1) abc = .next t ∧ exec (.compute 2 1) t = .next u ∧
      t.status.crcv = true) :=
  ⟨⟨_, rfl, rfl⟩, ⟨_, rfl⟩, c_holds, _, _, rfl, rfl, rfl⟩

/-- A polynomial of one bit, of the lowest and of the highest degree. -/
theorem test_witness_DegreeIsTheHighestSetBit :
    1#1 ≠ 0#1 ∧ 1#32 ≠ 0#32 ∧ 0x80000000#32 ≠ 0#32 := by decide

theorem test_witness_BitStepAsArithmetic : 0x80000057#32 ≠ 0#32 ∧ 1#1 ≠ 0#1 := by decide

theorem test_witness_RemainderStaysInRange :
    (0xA053#32 ≠ 0#32 ∧ (0x7FFF#32).toNat < 2 ^ deg 0xA053#32) ∧
    (abc.reg.toNat < 2 ^ deg abc.poly ∧ ∃ t, exec (.compute 0 3) abc = .next t ∧ t.status.crcv = true) ∧
    (∃ t, runCommands [.ldreg 0#32, .compute 0 2, .rdcrc] abc = .next t) ∧ abc.crc.toNat < 2 ^ deg abc.poly :=
  ⟨by decide, ⟨by decide, _, rfl, rfl⟩, ⟨_, rfl⟩, by decide⟩

/-- The lowest position that is never reduced, and the highest. -/
theorem test_witness_HighBitsAreNeverReduced : deg 0xA053#32 ≤ 15 ∧ deg 0xA053#32 ≤ 31 := by decide

theorem test_witness_ExtremeDegrees :
    ((abcPoly 1#32).poly = 1#32 ∧ (abcPoly 1#32).reg = 0#32 ∧
      ∃ t, exec (.compute 0 3) (abcPoly 1#32) = .next t ∧ t.status.crcv = true) ∧
    ((0x80000057#32).getLsbD 31 = true ∧ (0x7FFFFFFF#32).toNat < 2 ^ 31) :=
  ⟨⟨rfl, rfl, _, rfl, rfl⟩, by decide⟩

theorem test_witness_DividerIsPolynomialRemainder :
    (0xA053#32 ≠ 0#32 ∧ (0x7FFF#32).toNat < 2 ^ deg 0xA053#32) ∧ abc.reg.toNat < 2 ^ deg abc.poly ∧
    RangeHolds abc 0 [0x41#8, 0x42#8, 0x43#8] ∧ ∃ t, exec (.compute 0 3) abc = .next t ∧ t.status.crcv = true :=
  ⟨by decide, by decide, abc_holds, _, rfl, rfl⟩

/-- The range that ends at the end of the buffer; each fault; the range that holds an unwritten byte. -/
theorem test_witness_ComputeRunsTheDivider :
    (abc.poly ≠ 0#32 ∧ 0 + 3 ≤ Config.bufLen ∧ RangeHolds abc 0 [0x41#8, 0x42#8, 0x43#8]) ∧
    (512 + 0 ≤ Config.bufLen ∧ RangeHolds abc 512 []) ∧
    State.reset.poly = 0#32 ∧ Config.bufLen < 512 + 1 ∧
    (3 + 509 ≤ Config.bufLen ∧ ¬ RangeWritten abc 2 2) :=
  ⟨⟨by decide, by decide, abc_holds⟩, ⟨by decide, abc_holds_nothing_past_the_end⟩, by decide, by decide, by decide,
    fun h => h 1 (by decide) (by decide)⟩

theorem test_witness_ComputeChains :
    (∃ t u, exec (.compute 0 2) abc = .next t ∧ t.status.crcv = true ∧ exec (.compute 2 1) t = .next u ∧
      u.status.crcv = true) ∧
    (RangeHolds abc 0 [0x41#8, 0x42#8] ∧ RangeHolds abc 0 ([0x41#8, 0x42#8] ++ [0x43#8]) ∧
      ∃ t, exec (.compute 0 2) abc = .next t ∧ t.status.crcv = true ∧
        RangeHolds { abc with reg := t.reg } 2 [0x43#8] ∧
        ∃ u, exec (.compute 2 1) { abc with reg := t.reg } = .next u ∧ u.status.crcv = true) :=
  ⟨⟨_, _, rfl, rfl, rfl, rfl⟩, ab_holds, abc_holds, _, rfl, rfl, rangeHolds_of_read rfl, _, rfl, rfl⟩

/-- At the last start that passes, and at the first that does not. -/
theorem test_witness_ZeroLengthComputeDrains :
    (abc.poly ≠ 0#32 ∧ 512 ≤ Config.bufLen) ∧ State.reset.poly = 0#32 ∧ Config.bufLen < 513 := by decide

theorem test_witness_ComputeIsItsMicroSteps :
    (RangeHolds abc 0 [0x41#8, 0x42#8, 0x43#8] ∧ ∃ t, exec (.compute 0 3) abc = .next t ∧ t.status.crcv = true) ∧
    (∃ t, exec (.compute 512 1) abc = .next t ∧ t.rsps = abc.rsps ++ [.fault .insufficientData]) ∧
    (∃ t, exec .rdreg abc = .next t) ∧ microsteps (.compute 0 3) abc = 39 :=
  ⟨⟨abc_holds, _, rfl, rfl⟩, ⟨_, rfl, rfl⟩, ⟨_, rfl⟩, by decide⟩

theorem test_witness_ReadyBlockComputesTheCrc :
    (RecordReady abc 0 3 ∧ RecordReady abc 512 0) ∧
    (∀ i ∈ [Instr.ldreg 5#32, .wrbuf 0 1#8, .rdbuf 0, .compute 0 1], ∀ v, i ≠ .ldpoly v) ∧
    ∃ s, runCommands [.ldreg 5#32, .wrbuf 0 1#8, .rdbuf 0, .compute 0 1] State.reset = .next s :=
  ⟨⟨⟨by decide, by decide, by unfold RangeWritten; decide, rfl⟩,
    ⟨by decide, by decide, by unfold RangeWritten; decide, rfl⟩⟩, by simp, _, rfl⟩

/-- P5: a record interrupted by another, the saved REG loaded again. -/
theorem test_witness_SavedRegisterResumesTheDivision :
    (∀ i ∈ [Instr.ldreg 0#32, .wrbuf 3 9#8, .compute 2 1],
      (∀ v, i ≠ .ldpoly v) ∧ ∀ a y, i = .wrbuf a y → a < 2 ∨ 2 + 1 ≤ a) ∧
    (∃ t, runCommands ([.ldreg 0#32, .wrbuf 3 9#8, .compute 2 1] ++ [.ldreg 0x4142#32])
      { abc with reg := 0x4142#32 } = .next t) ∧
    ∃ u, exec (.compute 2 1) { abc with reg := 0x4142#32 } = .next u ∧ u.crc = 0x66CB#32 :=
  ⟨by simp, ⟨_, rfl⟩, _, rfl, by decide +kernel⟩

/-- Each of the three faults. -/
theorem test_witness_FaultChangesOnlyFlags :
    (∃ t, step (pending (.command 0x300000000#36) State.reset) = .next t ∧ t.rsps = [.fault .invalidPolynomial]) ∧
    (∃ t, step (pending (.command 0x302000001#36) flagged) = .next t ∧ t.rsps = [.fault .insufficientData]) ∧
    (∃ t, step (pending (.command 0#36) flagged) = .next t ∧ t.rsps = [.fault .illegalCommand]) :=
  ⟨⟨_, rfl, rfl⟩, ⟨_, rfl, rfl⟩, ⟨_, rfl, rfl⟩⟩

theorem test_witness_FaultPriority :
    ((pending (.command 0x400000001#36) abc).inputs = [.command 0x400000001#36] ∧ decode 0x400000001#36 = none) ∧
    State.reset.poly = 0#32 ∧ (abc.poly ≠ 0#32 ∧ Config.bufLen < 512 + 1) ∧
    ((Instr.rdbuf 512).isCompute = false ∧
      ∃ t, exec (.rdbuf 512) abc = .next t ∧ t.rsps = abc.rsps ++ [.fault .insufficientData]) :=
  ⟨by decide, by decide, by decide, by decide, _, rfl, rfl⟩

/-- Both refusals, and the reset input. -/
theorem test_witness_OnlyUnwrittenBytesAreRefused :
    (∃ r, exec (.rdbuf 511) abc = .refused r) ∧ (∃ r, exec (.compute 508 4) abc = .refused r) ∧
    (∃ t, step (pending .reset abc) = .next t) ∧
    (∃ r, step (pending (.command 0x901FF0000#36) abc) = .refused r) :=
  ⟨⟨_, rfl⟩, ⟨_, rfl⟩, ⟨_, rfl⟩, ⟨_, rfl⟩⟩

theorem test_witness_StickyBitsAndCrcv :
    (∃ t, step (pending (.command 0x902000000#36) abc) = .next t ∧ t.rsps = abc.rsps ++ [.fault .insufficientData]) ∧
    (∃ t, exec (.compute 0 3) abc = .next t ∧ (Instr.compute 0 3).isCompute = true) ∧
    (∃ t, exec (.wrbuf 512 0#8) flagged = .next t ∧ (Instr.wrbuf 512 0#8).isCompute = false) ∧
    ((pending .reset flagged).inputs.head? = some .reset ∧ ∃ t, step (pending .reset flagged) = .next t) :=
  ⟨⟨_, rfl, rfl⟩, ⟨_, rfl, rfl⟩, ⟨_, rfl, rfl⟩, rfl, _, rfl⟩

/-- Each state is written by some command. -/
theorem test_witness_OnlyItsOwnCommandWritesAState :
    (∃ t, exec (.ldpoly 1#32) abc = .next t ∧ t.poly ≠ abc.poly) ∧
    (∃ t, exec (.compute 0 1) abc = .next t ∧ t.reg ≠ abc.reg ∧ t.crc ≠ abc.crc) ∧
    (∃ t, exec (.wrbuf 2 0#8) abc = .next t ∧ t.buf.read 2 ≠ abc.buf.read 2) ∧
    (∃ t, exec (.compute 0 0) abc = .next t ∧ t.status.crcv ≠ abc.status.crcv) ∧
    (∃ t, exec (.rdbuf 512) abc = .next t ∧
      t.status.sticky .insufficientData ≠ abc.status.sticky .insufficientData) :=
  ⟨⟨_, rfl, by decide⟩, ⟨_, rfl, by decide +kernel, by decide +kernel⟩, ⟨_, rfl, by decide⟩, ⟨_, rfl, by decide⟩,
    ⟨_, rfl, by decide⟩⟩

theorem test_witness_BlockStateAloneDecides :
    SameBlock abc { abc with inputs := [.reset], rsps := [.ok 1#32] } ∧ (∃ t, exec .rdpoly abc = .next t) ∧
    ∃ x, exec (.rdbuf 3) abc = .refused x :=
  ⟨⟨rfl, rfl, rfl, rfl, rfl⟩, ⟨_, rfl⟩, _, rfl⟩

theorem test_witness_BufferStaysCanonical :
    Safety.Inv (pending (.command 0x801FF00FF#36) abc) ∧
    ∃ t, step (pending (.command 0x801FF00FF#36) abc) = .next t ∧ t.buf ≠ abc.buf :=
  ⟨by unfold Safety.Inv; decide, _, rfl, by decide⟩

theorem test_witness_CanonicalBuffersReadingAlikeAreEqual :
    Memory.wf abc.buf = true ∧ Config.bufLen ≤ 512 := by decide

theorem test_witness_ResetPutsTheResetState :
    (pending .reset flagged).inputs = .reset :: [] ∧
    (pending (.resetDuring 0x300000003#36) flagged).inputs = .resetDuring 0x300000003#36 :: [] := by decide

theorem test_witness_InstancesDoNotInteract :
    (∃ sys, stepInstance 1 [abc, pending (.command 0x500000000#36) abc] = .next sys) ∧
    ∃ sys, runInstances [0, 1] [pending (.command 0x600000000#36) abc, pending (.command 0x500000000#36) abc] =
      .next sys :=
  ⟨⟨_, rfl⟩, ⟨_, rfl⟩⟩

/-- Another legal value of the parameters: a buffer of one byte, chunks of one byte. -/
def small : Config.Params := ⟨1, 1, 1, 8, 2#32, 0#8⟩

/-- The largest legal buffer. -/
def large : Config.Params := ⟨65535, 64, 504, 8, 0xA053#32, 0x2E#8⟩

/-- Chunks of one byte. With this hardware's width: a region of one byte, of one full chunk and of one byte more. -/
theorem test_witness_ChunksPartitionTheRegion :
    (1 ≤ small.chunkW ∧ chunksWith small 2 = [(0, 1), (1, 1)]) ∧ 1 ≤ Config.thisHardware.chunkW ∧
    0 < 1 ∧ chunks 1 = [(0, 1)] ∧ chunks 64 = [(0, 64)] ∧ chunks 65 = [(0, 64), (64, 1)] := by decide

theorem test_witness_TrailerIsEightHexDigits : hex8 0x1942#32 = hex8 (0x1942#32) ∧ 7 < (hex8 0#32).length := by decide

/-- `computeRecord` runs to its end somewhere: any 504 bytes, any polynomial but 0, any state. -/
theorem record_exists (data : List Byte) (hl : data.length = 504) (poly : Word) (hp : poly ≠ 0#32) (s : State) :
    ∃ record t, computeRecord data poly s = .done record t := by
  have hb : Config.bufLen = 512 := rfl
  have hg : Config.regionLen = 504 := rfl
  obtain ⟨t, w1, w2, -, -, -, -, -, w7, -⟩ := writeBytes_done (P := Config.thisHardware) (by decide) data 0
    (respond 0#32 { s with poly := poly }) (by rw [Config.thisHardware_bufLen]; omega)
  have hcs : ∀ c ∈ chunksWith Config.thisHardware 504, c.1 + c.2 ≤ 504 := by decide
  obtain ⟨events, u, r1, r2⟩ := runChunks_done (P := Config.thisHardware) (by decide) (chunksWith Config.thisHardware 504) (respond 0#32 { t with reg := 0#32 })
    (by rw [respond_poly]; exact w2 ▸ hp)
    (fun c hc => ⟨by have := hcs c hc; rw [Config.thisHardware_bufLen]; omega, fun k hk => by
      have hlt : c.1 + k < data.length := by have := hcs c hc; omega
      have := w7 (c.1 + k) hlt
      rw [Nat.zero_add] at this
      rw [respond_buf, this]; exact Option.some_ne_none _⟩)
  have hne : events ≠ [] := by rintro rfl; exact absurd r2 (by decide)
  refine ⟨data ++ hex8 (events.getLast hne).2, u, ?_⟩
  rw [computeRecord, computeRecordWith, Config.thisHardware_regionLen, if_neg (by omega),
    show dataRegion Config.thisHardware data = data from
      List.take_of_length_le (by rw [Config.thisHardware_regionLen]; omega),
    finalCrc, computeRegion, issue_ldpoly]
  simp only [DriverOutcome.andThen]
  rw [w1]
  simp only [issue_ldreg]
  rw [hl, r1]
  simp only [List.getLast?_eq_some_getLast hne]

/-- A region of 504 bytes. -/
def region : List Byte := List.replicate 504 Config.fillByte

theorem region_length : region.length = 504 := List.length_replicate

/-- The smallest and the largest legal buffer; exactly `REGION_LEN` bytes. -/
theorem test_witness_ComputeRecordAppendsTheCrc :
    (small.legal = true ∧ small.regionLen ≤ [7#8].length) ∧ (large.legal = true ∧ large.regionLen ≤ region.length) ∧
    504 ≤ region.length ∧ Config.polyRef ≠ 0#32 :=
  ⟨by decide, ⟨by decide, by rw [region_length]; decide⟩, by rw [region_length], by decide⟩

theorem test_witness_VerifyAcceptsWhatComputeMade :
    region.length = 504 ∧ ∃ record t, computeRecord region Config.polyRef State.reset = .done record t :=
  ⟨region_length, record_exists _ region_length _ (by decide) _⟩

/-- Two set bits of the reference polynomial, the last byte of the region and its bit 7. -/
theorem test_witness_FlippedBitIsDetected :
    (15 ≠ 0 ∧ Config.polyRef.getLsbD 15 = true ∧ Config.polyRef.getLsbD 0 = true) ∧
    503 < region.length ∧ 7 < 8 ∧ 31 < 32 ∧
    ∃ record t, computeRecord region Config.polyRef State.reset = .done record t :=
  ⟨by decide, by rw [region_length]; decide, by decide, by decide, record_exists _ region_length _ (by decide) _⟩

theorem test_witness_ShortDataIssuesNoCommand : ([] : List Byte).length < 504 ∧ (region.take 503).length < 504 :=
  ⟨by decide, by rw [List.length_take, region_length]; decide⟩

theorem test_witness_ZeroPolynomialAbortsTheRecord : region.length = 504 := region_length

theorem test_witness_BufLenBoundsTheBuffer :
    (∃ t, execWith small (.wrbuf 0 7#8) State.reset = .next t ∧ t.buf.wfIn small.bufLen = true) ∧
    (∃ t, execWith small (.wrbuf 1 7#8) State.reset = .next t ∧ t.rsps = [.fault .insufficientData]) ∧
    (∃ t, execWith large (.rdbuf 65535) abc = .next t ∧ t.rsps = [.fault .insufficientData]) ∧
    (∃ t, execWith large (.compute 65535 1) abc = .next t ∧ t.rsps = [.fault .insufficientData]) ∧
    State.reset.buf.wfIn small.bufLen = true :=
  ⟨⟨_, rfl, by decide⟩, ⟨_, rfl, rfl⟩, ⟨_, rfl, rfl⟩, ⟨_, rfl, rfl⟩, by decide⟩

/-- The unwritten byte stands last in the range, and first. -/
theorem test_witness_RefusalNamesTheLowestUnwrittenByte :
    abc.poly ≠ 0#32 ∧ (0 + 4 ≤ Config.bufLen ∧ ¬ RangeWritten abc 0 4) ∧
    (511 + 1 ≤ Config.bufLen ∧ ¬ RangeWritten abc 511 1) :=
  ⟨by decide, ⟨by decide, fun h => h 3 (by decide) (by decide)⟩, by decide, fun h => h 0 (by decide) (by decide)⟩

end Sys2Proof.Tests
end

section
/-! SUPPORT. Every well-formed command's word decodes to it (spec 30_encoding.md R70), and a word presented to the block
is the next one it takes (00_scope.md R6; 10_state.md R27). -/

namespace Sys2Proof.Machine

theorem decode_encode_rdbuf {addr : Nat} (ha : addr < 65536) :
    decode (encode (.rdbuf addr)) = some (.rdbuf addr) := by
  have h1 : opField (encode (.rdbuf addr)) = 0x9#4 := by
    rw [← BitVec.toNat_inj, opField_toNat, encode_rdbuf_toNat]; simp; omega
  have h2 : highField (encode (.rdbuf addr)) = addr := by rw [highField_eq, encode_rdbuf_toNat]; omega
  have h3 : zeroFieldA (encode (.rdbuf addr)) = 0#16 := by
    rw [← BitVec.toNat_inj, zeroFieldA_toNat, encode_rdbuf_toNat]; simp
  simp [decode, h1, h2, h3]

theorem fits16_eq_true {n : Nat} : fits16 n = true ↔ n < 65536 := decide_eq_true_iff

theorem wellFormed_compute {start len : Nat} :
    (Instr.compute start len).wellFormed = true ↔ start < 65536 ∧ len < 65536 := by
  simp [Instr.wellFormed, fits16_eq_true]

theorem decode_encode {i : Instr} (h : i.wellFormed = true) : decode (encode i) = some i := by
  cases i with
  | ldpoly imm => exact decode_encode_ldpoly imm
  | ldreg imm => exact decode_encode_ldreg imm
  | compute start len =>
    obtain ⟨hs, hl⟩ := wellFormed_compute.mp h
    exact decode_encode_compute hs hl
  | rdcrc => decide
  | rdreg => decide
  | rdpoly => decide
  | rdstat => decide
  | wrbuf addr data => exact decode_encode_wrbuf (fits16_eq_true.mp h) data
  | rdbuf addr => exact decode_encode_rdbuf (fits16_eq_true.mp h)

theorem tableWord_toNat (c : CmdWord) : tableWord 36 c.toNat = some c := by
  rw [tableWord, Nat.mod_eq_of_lt c.isLt, if_pos c.isLt, BitVec.ofNat_toNat, BitVec.setWidth_eq]

theorem withFetchWord_toNat (s : State) (c : CmdWord) : s.withFetchWord 36 c.toNat = presentWord c s := by
  simp [State.withFetchWord, tableWord_toNat]

/-- A presented word that decodes runs as its command, and the state it runs at is the one before it was presented. -/
theorem step_presentWord {c : CmdWord} {i : Instr} (hd : decode c = some i) (s : State) :
    step (presentWord c s) = exec i s :=
  step_command (presentWord_inputs c s) hd

end Sys2Proof.Machine
end

section
/-! SUPPORT. No command looks at what the host does next (spec 41_compute.md R113; log entry 1), so a stream of commands
runs as the commands one after the other (00_scope.md R6, 20_memory.md R49). -/

namespace Sys2Proof.Machine

/-- The state with these inputs still to come. -/
def State.withInputs (s : State) (xs : List HostInput) : State := { s with inputs := xs }

@[simp] theorem withInputs_poly (s : State) (xs : List HostInput) : (s.withInputs xs).poly = s.poly := rfl
@[simp] theorem withInputs_buf (s : State) (xs : List HostInput) : (s.withInputs xs).buf = s.buf := rfl
@[simp] theorem withInputs_inputs (s : State) (xs : List HostInput) : (s.withInputs xs).inputs = xs := rfl

theorem withInputs_self {s : State} {xs : List HostInput} (h : s.inputs = xs) : s.withInputs xs = s := by
  subst h; rfl

/-- The outcome with these inputs still to come, where there is a next state. -/
def outcomeWithInputs (xs : List HostInput) :
    Host.Outcome State Fault Refusal → Host.Outcome State Fault Refusal
  | .next t => .next (t.withInputs xs)
  | .fault f => .fault f
  | .refused r => .refused r

/-- A command's outcome does not depend on the inputs to come, and it leaves them as they are. -/
theorem exec_withInputs (i : Instr) (s : State) (xs : List HostInput) :
    exec i (s.withInputs xs) = outcomeWithInputs xs (exec i s) := by
  cases i with
  | wrbuf addr data =>
    rcases Nat.lt_or_ge addr Config.bufLen with ha | ha
    · rw [exec_wrbuf_ok ha, exec_wrbuf_ok ha]; rfl
    · rw [exec_wrbuf_fault ha, exec_wrbuf_fault ha]; rfl
  | rdbuf addr =>
    rcases Nat.lt_or_ge addr Config.bufLen with ha | ha
    · cases hy : s.buf.read addr with
      | none => rw [exec_rdbuf_refused ha hy, exec_rdbuf_refused ha (by simpa using hy)]; rfl
      | some y => rw [exec_rdbuf_ok ha hy, exec_rdbuf_ok ha (by simpa using hy)]; rfl
    · rw [exec_rdbuf_fault ha, exec_rdbuf_fault ha]; rfl
  | compute start len =>
    by_cases hp : s.poly = 0#32
    · rw [exec_compute_invalid hp, exec_compute_invalid (by simpa using hp)]; rfl
    · have hp' : (s.withInputs xs).poly ≠ 0#32 := hp
      rcases Nat.lt_or_ge Config.bufLen (start + len) with hr | hr
      · rw [exec_compute_insufficient hp hr, exec_compute_insufficient hp' hr]; rfl
      · cases hy : readRange s.buf start len with
        | error a => rw [exec_compute_refused hp hr hy, exec_compute_refused hp' hr (by simpa using hy)]; rfl
        | ok ys => rw [exec_compute_ok hp hr hy, exec_compute_ok hp' hr (by simpa using hy)]; rfl
  | _ => rfl

/-- Taking the encoded command at the head of the stream is running it, the rest of the stream still to come. -/
theorem step_encoded {i : Instr} (h : i.wellFormed = true) (s : State) (rest : List HostInput) :
    step (s.withInputs (.command (encode i) :: rest)) = outcomeWithInputs rest (exec i s) := by
  rw [step_command (withInputs_inputs s _) (decode_encode h)]
  exact exec_withInputs i s rest

theorem run_succ_of_step_next {M : Host.Core} {s t : M.State} (h : M.step s = .next t) (k : Nat) :
    M.run (k + 1) s = M.run k t := by
  simp only [Host.Core.run, h]

theorem run_succ_of_step_refused {M : Host.Core} {s : M.State} {r : M.Refusal} (h : M.step s = .refused r) (k : Nat) :
    M.run (k + 1) s = .refused r := by
  simp only [Host.Core.run, h]

theorem runCommands_cons_of_exec_next {i : Instr} {s t : State} (h : exec i s = .next t) (cmds : List Instr) :
    Safety.runCommands (i :: cmds) s = Safety.runCommands cmds t := by
  rw [Safety.runCommands, h]

theorem runCommands_cons_of_exec_refused {i : Instr} {s : State} {r : Refusal} (h : exec i s = .refused r)
    (cmds : List Instr) : Safety.runCommands (i :: cmds) s = .refused r := by
  rw [Safety.runCommands, h]

/-- The stream in which the host presents the commands' words. -/
def commandStream (cmds : List Instr) : List HostInput := cmds.map fun i => .command (encode i)

theorem run_commandStream (cmds : List Instr) (s : State) (rest : List HostInput)
    (h : ∀ i ∈ cmds, i.wellFormed = true) :
    core.run cmds.length (s.withInputs (commandStream cmds ++ rest)) =
      Safety.runCommands cmds (s.withInputs rest) := by
  induction cmds generalizing s with
  | nil => rfl
  | cons i cmds ih =>
    obtain ⟨hi, hcmds⟩ := List.forall_mem_cons.mp h
    have hstep := step_encoded hi s (commandStream cmds ++ rest)
    have hexec := exec_withInputs i s rest
    cases he : exec i s with
    | next t =>
      rw [he] at hstep hexec
      rw [runCommands_cons_of_exec_next hexec, ← ih t hcmds]
      refine run_succ_of_step_next (M := core) ?_ cmds.length
      exact hstep
    | fault f => exact absurd he (exec_ne_fault i s f)
    | refused r =>
      rw [he] at hstep hexec
      rw [runCommands_cons_of_exec_refused hexec]
      refine run_succ_of_step_refused (M := core) ?_ cmds.length
      exact hstep

end Sys2Proof.Machine
end

section
/-! SUPPORT. With any `BUF_LEN`, the commands that name a byte at or above it, and what every other command can answer
(spec 00_scope.md R5; 20_memory.md R41, R47). -/

namespace Sys2Proof.Machine

/-- The command names a byte past the buffer and comes to that check: for a COMPUTE the polynomial check is before it
(60_exceptions.md R147). -/
def NamesBytePastBuffer (P : Config.Params) (i : Instr) (s : State) : Prop :=
  match i with
  | .compute start len => s.poly ≠ 0#32 ∧ P.bufLen < start + len
  | .wrbuf addr _ => P.bufLen ≤ addr
  | .rdbuf addr => P.bufLen ≤ addr
  | .ldpoly _ | .ldreg _ | .rdcrc | .rdreg | .rdpoly | .rdstat => False

theorem namesBytePastBuffer_iff {P : Config.Params} {i : Instr} {s : State} :
    NamesBytePastBuffer P i s ↔
      (∃ start len, i = .compute start len ∧ s.poly ≠ 0#32 ∧ P.bufLen < start + len) ∨
      (∃ a y, i = .wrbuf a y ∧ P.bufLen ≤ a) ∨ (∃ a, i = .rdbuf a ∧ P.bufLen ≤ a) := by
  cases i <;> simp [NamesBytePastBuffer]

/-- Such a command raises InsufficientData (R41, R106, R142). -/
theorem execWith_of_namesBytePastBuffer {P : Config.Params} {i : Instr} {s : State}
    (h : NamesBytePastBuffer P i s) : execWith P i s = .next (raise .insufficientData i.isCompute s) := by
  cases i with
  | compute start len => exact execComputeWith_insufficient h.1 h.2
  | wrbuf addr data => exact execWrbufWith_fault h data s
  | rdbuf addr => exact execRdbufWith_fault h s
  | _ => exact h.elim

/-- What a command that names no byte past the buffer can do: it does not answer InsufficientData, and it writes at most
one byte, below `BUF_LEN`. -/
structure StaysInBuffer (P : Config.Params) (s t : State) : Prop where
  rsps : ∃ r, r ≠ .fault .insufficientData ∧ t.rsps = s.rsps ++ [r]
  buf : t.buf = s.buf ∨ ∃ a y, a < P.bufLen ∧ t.buf = s.buf.write a y

theorem execWith_staysInBuffer {P : Config.Params} {i : Instr} {s t : State} (h : ¬ NamesBytePastBuffer P i s)
    (he : execWith P i s = .next t) : StaysInBuffer P s t := by
  cases i with
  | compute start len =>
    by_cases hp : s.poly = 0#32
    · cases (execComputeWith_invalid hp P start len).symm.trans he
      exact ⟨⟨_, by simp, raise_rsps ..⟩, .inl rfl⟩
    · have hr : start + len ≤ P.bufLen := not_lt.mp fun hr => h ⟨hp, hr⟩
      cases hy : readRange s.buf start len with
      | error a => cases (execComputeWith_refused hp hr hy).symm.trans he
      | ok ys =>
        cases (execComputeWith_ok hp hr hy).symm.trans he
        exact ⟨⟨_, by simp, finishCompute_rsps ..⟩, .inl rfl⟩
  | wrbuf addr data =>
    have ha : addr < P.bufLen := not_le.mp h
    cases (execWrbufWith_ok ha data s).symm.trans he
    exact ⟨⟨_, by simp, respond_rsps ..⟩, .inr ⟨addr, data, ha, rfl⟩⟩
  | rdbuf addr =>
    have ha : addr < P.bufLen := not_le.mp h
    cases hy : s.buf.read addr with
    | none => cases (execRdbufWith_refused ha hy).symm.trans he
    | some y =>
      cases (execRdbufWith_ok ha hy).symm.trans he
      exact ⟨⟨_, by simp, respond_rsps ..⟩, .inl rfl⟩
  | _ => cases he; exact ⟨⟨_, by simp, respond_rsps ..⟩, .inl rfl⟩

theorem execWith_answers_insufficientData_iff {P : Config.Params} {i : Instr} {s t : State}
    (he : execWith P i s = .next t) :
    t.rsps = s.rsps ++ [.fault .insufficientData] ↔ NamesBytePastBuffer P i s := by
  by_cases h : NamesBytePastBuffer P i s
  · cases (execWith_of_namesBytePastBuffer h).symm.trans he
    simp [h]
  · obtain ⟨r, hr, hrsps⟩ := (execWith_staysInBuffer h he).rsps
    simp [h, hrsps, hr]

theorem execWith_wf {P : Config.Params} {i : Instr} {s t : State} (he : execWith P i s = .next t)
    (hw : s.buf.wfIn P.bufLen = true) : t.buf.wfIn P.bufLen = true := by
  by_cases h : NamesBytePastBuffer P i s
  · cases (execWith_of_namesBytePastBuffer h).symm.trans he
    exact hw
  · obtain hb | ⟨a, y, ha, hb⟩ := (execWith_staysInBuffer h he).buf
    · rw [hb]; exact hw
    · rw [hb]; exact Memory.write_risingFrom hw (Nat.zero_le a) ha

end Sys2Proof.Machine
end

section
/-! The obligations of 00_scope.md. -/

namespace Sys2Proof.Proofs

open Sys2Proof.Machine

/-- Settles O8, by induction on the commands: a command does not see the rest of the stream. -/
theorem streamRunsTheCommandsInOrder : Obligations.StreamRunsTheCommandsInOrder := by
  intro cmds s rest hw hin
  have hs : s.withInputs (commandStream cmds ++ rest) = s := withInputs_self hin
  have h := run_commandStream cmds s rest hw
  rwa [hs] at h

/-- Settles O53, by the case split on whether the command names a byte past the buffer. -/
theorem bufLenBoundsTheBuffer : Obligations.BufLenBoundsTheBuffer :=
  fun _ _ _ _ he => ⟨(execWith_answers_insufficientData_iff he).trans namesBytePastBuffer_iff, execWith_wf he⟩

/-- Settles O7: each part is one of the laws of `step`. -/
theorem stepRunsTheDecodedCommand : Obligations.StepRunsTheDecodedCommand := by
  refine ⟨fun s c rest i => step_command, fun s => step_idle, fun s c i hd => ?_, fun s i hw => ?_⟩
  · rw [withFetchWord_toNat]
    exact step_presentWord hd s
  · exact step_presentWord (decode_encode hw) s

/-- Settles O52: the parameters by evaluation, the machine by `execWith_thisHardware` and `stepWith_thisHardware`. -/
theorem machineIsTheParametricInstance : Obligations.MachineIsTheParametricInstance :=
  ⟨rfl, Config.thisHardware_legal, word_width_is_W, rfl, byte_width_is_BYTE, rfl,
    fun i s => by rw [execWith_thisHardware], fun s => by rw [stepWith_thisHardware]⟩

end Sys2Proof.Proofs
end

section
/-! SUPPORT. The two ways a command ends: it answers OK and leaves the sticky bits, or it raises a fault (spec
10_state.md R24, 60_exceptions.md R148); and which command changes which state (10_state.md R31, R32). -/

namespace Sys2Proof.Machine

/-- What a command without fault does to the flags: no sticky bit changes, and a COMPUTE sets CRCV (R24). -/
structure AnswersOk (i : Instr) (s t : State) : Prop where
  rsps : ∃ v, t.rsps = s.rsps ++ [.ok v]
  sticky : ∀ f, t.status.sticky f = s.status.sticky f
  crcv : t.status.crcv = (s.status.crcv || i.isCompute)

theorem AnswersOk.of_status_eq {i : Instr} {s t : State} {v : Word} (hi : i.isCompute = false)
    (hr : t.rsps = s.rsps ++ [.ok v]) (hs : t.status = s.status) : AnswersOk i s t :=
  ⟨⟨v, hr⟩, fun f => by rw [hs], by rw [hs, hi, Bool.or_false]⟩

theorem Effect.answersOk_or_raise {i : Instr} {s t : State} (h : Effect i s t) :
    AnswersOk i s t ∨ ∃ f, t = raise f i.isCompute s := by
  cases h with
  | ldpoly imm hi => subst hi; exact .inl (.of_status_eq rfl rfl rfl)
  | ldreg imm hi => subst hi; exact .inl (.of_status_eq rfl rfl rfl)
  | answer v hi =>
    have hc : i.isCompute = false := by
      obtain ⟨rfl, -⟩ | ⟨rfl, -⟩ | ⟨rfl, -⟩ | ⟨rfl, -⟩ | ⟨addr, y, rfl, -⟩ := hi <;> rfl
    exact .inl (.of_status_eq hc rfl rfl)
  | wrbuf addr data hi => subst hi; exact .inl (.of_status_eq rfl rfl rfl)
  | compute start len ys hi =>
    subst hi
    exact .inl ⟨⟨_, finishCompute_rsps ys s⟩, afterCompute_sticky s.status, (Bool.or_true _).symm⟩
  | invalid start len hi => subst hi; exact .inr ⟨_, rfl⟩
  | insufficient => exact .inr ⟨_, rfl⟩

theorem raise_sticky_iff (f g : Fault) (b : Bool) (s : State) :
    (raise g b s).status.sticky f = true ↔
      s.status.sticky f = true ∨ (raise g b s).rsps = s.rsps ++ [.fault f] := by
  simp

/-- A command sets exactly the sticky bit of the fault it answers, and clears none (R24, R148). -/
theorem Effect.sticky_iff {i : Instr} {s t : State} (h : Effect i s t) (f : Fault) :
    t.status.sticky f = true ↔ s.status.sticky f = true ∨ t.rsps = s.rsps ++ [.fault f] := by
  obtain hok | ⟨g, rfl⟩ := h.answersOk_or_raise
  · obtain ⟨v, hr⟩ := hok.rsps
    simp [hok.sticky, hr]
  · exact raise_sticky_iff f g _ s

/-- CRCV after a COMPUTE says whether it answered OK (R24, R106, R148). -/
theorem Effect.crcv_iff_of_isCompute {i : Instr} {s t : State} (h : Effect i s t) (hi : i.isCompute = true) :
    t.status.crcv = true ↔ ∃ v, t.rsps = s.rsps ++ [.ok v] := by
  obtain hok | ⟨f, rfl⟩ := h.answersOk_or_raise
  · simp [hok.crcv, hi, hok.rsps]
  · simp [hi]

theorem Effect.crcv_eq_of_not_isCompute {i : Instr} {s t : State} (h : Effect i s t) (hi : i.isCompute = false) :
    t.status.crcv = s.status.crcv := by
  obtain hok | ⟨f, rfl⟩ := h.answersOk_or_raise
  · simp [hok.crcv, hi]
  · simp [hi]

/-! ### Which command changes which state (R31, R32) -/

theorem Effect.eq_ldpoly_of_poly_ne {i : Instr} {s t : State} (h : Effect i s t) (hne : t.poly ≠ s.poly) :
    i = .ldpoly t.poly := by
  cases h with
  | ldpoly imm hi => exact hi
  | _ => exact absurd rfl hne

theorem Effect.eq_ldreg_or_compute_of_reg_ne {i : Instr} {s t : State} (h : Effect i s t) (hne : t.reg ≠ s.reg) :
    i = .ldreg t.reg ∨ (i.isCompute = true ∧ t.status.crcv = true) := by
  cases h with
  | ldreg imm hi => exact .inl hi
  | compute start len ys hi => subst hi; exact .inr ⟨rfl, rfl⟩
  | _ => exact absurd rfl hne

theorem Effect.compute_of_crc_ne {i : Instr} {s t : State} (h : Effect i s t) (hne : t.crc ≠ s.crc) :
    i.isCompute = true ∧ t.status.crcv = true := by
  cases h with
  | compute start len ys hi => subst hi; exact ⟨rfl, rfl⟩
  | _ => exact absurd rfl hne

theorem Effect.eq_wrbuf_of_read_ne {i : Instr} {s t : State} (h : Effect i s t) {a : Nat}
    (hne : t.buf.read a ≠ s.buf.read a) : ∃ y, i = .wrbuf a y ∧ t.buf.read a = some y := by
  cases h with
  | wrbuf addr data hi =>
    have ha : a = addr := by
      by_contra ha
      exact hne (Memory.read_write_other s.buf data ha)
    subst ha
    exact ⟨data, hi, Memory.read_write_same s.buf a data⟩
  | _ => exact absurd rfl hne

theorem Effect.isCompute_of_crcv_ne {i : Instr} {s t : State} (h : Effect i s t)
    (hne : t.status.crcv ≠ s.status.crcv) : i.isCompute = true := by
  by_contra hi
  exact hne (h.crcv_eq_of_not_isCompute (Bool.eq_false_of_not_eq_true hi))

theorem Effect.answers_fault_of_sticky_ne {i : Instr} {s t : State} (h : Effect i s t) {f : Fault}
    (hne : t.status.sticky f ≠ s.status.sticky f) : t.rsps = s.rsps ++ [.fault f] := by
  by_contra hr
  have hiff := h.sticky_iff f
  rw [or_iff_left hr] at hiff
  exact hne (Bool.eq_iff_iff.mpr hiff)

end Sys2Proof.Machine
end

section
/-! SUPPORT. The flags at the level of a step, the reset input, and STATUS as a number (spec 10_state.md R24,
70_reset_and_hazards.md R170, R171). -/

namespace Sys2Proof.Machine

theorem applyReset_sameBlock (s : State) : Safety.SameBlock State.reset (applyReset s) :=
  ⟨rfl, rfl, rfl, rfl, rfl⟩

/-- Both kinds of reset are the reset transition (R170, R171). -/
theorem step_reset {s : State} {x : HostInput} {rest : List HostInput} (h : s.inputs = x :: rest)
    (hx : x = .reset ∨ ∃ c, x = .resetDuring c) : step s = .next (applyReset { s with inputs := rest }) := by
  rw [step_input h]
  obtain rfl | ⟨c, rfl⟩ := hx <;> rfl

theorem step_reset_of_head? {s : State}
    (h : s.inputs.head? = some .reset ∨ ∃ c, s.inputs.head? = some (.resetDuring c)) :
    ∃ rest, step s = .next (applyReset { s with inputs := rest }) := by
  obtain h | ⟨c, h⟩ := h
  · obtain ⟨rest, hin⟩ := List.head?_eq_some_iff.mp h
    exact ⟨rest, step_reset hin (.inl rfl)⟩
  · obtain ⟨rest, hin⟩ := List.head?_eq_some_iff.mp h
    exact ⟨rest, step_reset hin (.inr ⟨c, rfl⟩)⟩

/-- A step that is no reset sets exactly the sticky bit of the fault it answers, and clears none (R24). -/
theorem StepEffect.sticky_iff {s t : State} (h : StepEffect s t) (hreset : s.inputs.head? ≠ some .reset)
    (hduring : ∀ c, s.inputs.head? ≠ some (.resetDuring c)) (f : Fault) :
    t.status.sticky f = true ↔ s.status.sticky f = true ∨ t.rsps = s.rsps ++ [.fault f] := by
  cases h with
  | idle => simp
  | command c rest i _ _ _ he => exact he.sticky_iff f
  | illegal c rest => exact raise_sticky_iff f .illegalCommand false { s with inputs := rest }
  | reset x rest h hx =>
    have hhead : s.inputs.head? = some x := by rw [h, List.head?_cons]
    obtain rfl | ⟨c, rfl⟩ := hx
    · exact absurd hhead hreset
    · exact absurd hhead (hduring c)

/-- Each flag at its place in the word of STATUS (R24, R85). -/
theorem Status.word_toNat (t : Status) :
    t.word.toNat = t.crcv.toNat + 2 * t.epoly.toNat + 4 * t.edata.toNat + 8 * t.ecmd.toNat := by
  obtain ⟨crcv, epoly, edata, ecmd⟩ := t
  revert crcv epoly edata ecmd
  decide

end Sys2Proof.Machine
end

section
/-! The obligations of 10_state.md. -/

namespace Sys2Proof.Proofs

open Sys2Proof.Machine

/-- Settles O37: a command word answers OK and leaves the sticky bits, or raises its fault, and only a reset clears
one. -/
theorem stickyBitsAndCrcv : Obligations.StickyBitsAndCrcv := by
  refine ⟨fun s t f h hreset hduring => ?_, fun i s t h => ?_, fun s t hin h => ?_, Status.word_toNat⟩
  · exact (step_next h).sticky_iff hreset hduring f
  · have he := exec_next h
    exact ⟨he.crcv_iff_of_isCompute, he.crcv_eq_of_not_isCompute⟩
  · obtain ⟨rest, hstep⟩ := step_reset_of_head? hin
    cases hstep.symm.trans h
    exact applyReset_status _

/-- Settles O38: by the inversion lemma of `exec`, one state at a time. -/
theorem onlyItsOwnCommandWritesAState : Obligations.OnlyItsOwnCommandWritesAState := by
  intro i s t h
  have he := exec_next h
  exact ⟨he.eq_ldpoly_of_poly_ne, he.eq_ldreg_or_compute_of_reg_ne, he.compute_of_crc_ne,
    fun _ => he.eq_wrbuf_of_read_ne, he.isCompute_of_crcv_ne, fun _ => he.answers_fault_of_sticky_ne⟩

/-- Settles O41: no byte is written at reset, and the empty list is in canonical form. -/
theorem resetBufferIsCanonical : Obligations.ResetBufferIsCanonical := rfl

/-- Settles O43, by `step_reset`: both kinds of reset are the same transition, from any state. -/
theorem resetPutsTheResetState : Obligations.ResetPutsTheResetState :=
  ⟨fun _ _ _ h hx => ⟨_, step_reset h hx, applyReset_sameBlock _, applyReset_rsps _, applyReset_inputs _⟩,
    rfl, rfl, rfl, rfl, fun _ => rfl⟩

end Sys2Proof.Proofs
end

section
/-! SUPPORT. The canonical form of BUF decides the list, and every step keeps it (spec 20_memory.md R40, R47, section 4;
log entry 4). -/

namespace Sys2Proof.Machine

@[simp] theorem Memory.read_cons_same (a : Nat) (y : Byte) (m : Memory) : Memory.read ((a, y) :: m) a = some y := by
  simp [Memory.read]

theorem Memory.read_cons_other {a b : Nat} (h : b ≠ a) (y : Byte) (m : Memory) :
    Memory.read ((a, y) :: m) b = m.read b := by
  simp [Memory.read, h]

/-- The first address listed is the lowest written one. -/
theorem Memory.head_le_of_read_eq_some {hi lo a b : Nat} {y v : Byte} {m : Memory}
    (h : Memory.risingFrom hi lo ((a, y) :: m) = true) (hb : Memory.read ((a, y) :: m) b = some v) : a ≤ b := by
  obtain ⟨-, ha, hm⟩ := Memory.risingFrom_cons.mp h
  by_contra hlt
  have hself : Memory.risingFrom hi a ((a, y) :: m) = true := Memory.risingFrom_cons.mpr ⟨le_refl a, ha, hm⟩
  cases hb.symm.trans (Memory.read_eq_none_of_lt hself (not_le.mp hlt))

/-- Two lists of rising addresses that read alike are equal: their first addresses are each the lowest written one, and
below the first address of the rest both rests read nothing. -/
theorem Memory.eq_of_read_eq {hi lo lo' : Nat} {m m' : Memory} (h : Memory.risingFrom hi lo m = true)
    (h' : Memory.risingFrom hi lo' m' = true) (hread : ∀ a, m.read a = m'.read a) : m = m' := by
  induction m generalizing lo lo' m' with
  | nil =>
    cases m' with
    | nil => rfl
    | cons c m' => cases (hread c.1).trans (Memory.read_cons_same c.1 c.2 m')
  | cons c m ih =>
    obtain ⟨a, y⟩ := c
    have hy : m'.read a = some y := by rw [← hread, Memory.read_cons_same]
    cases m' with
    | nil => cases hy
    | cons c' m' =>
      obtain ⟨b, z⟩ := c'
      have hz : Memory.read ((a, y) :: m) b = some z := by rw [hread, Memory.read_cons_same]
      have hab : a = b :=
        le_antisymm (Memory.head_le_of_read_eq_some h hz) (Memory.head_le_of_read_eq_some h' hy)
      subst hab
      obtain ⟨-, -, hm⟩ := Memory.risingFrom_cons.mp h
      obtain ⟨-, -, hm'⟩ := Memory.risingFrom_cons.mp h'
      have hyz : z = y := by simpa using hy
      have hrest : ∀ d, Memory.read m d = Memory.read m' d := by
        intro d
        by_cases hd : d = a
        · subst hd
          rw [Memory.read_eq_none_of_lt hm (Nat.lt_succ_self d), Memory.read_eq_none_of_lt hm' (Nat.lt_succ_self d)]
        · rw [← Memory.read_cons_other hd y m, hread, Memory.read_cons_other hd]
      rw [hyz, ih hm hm' hrest]

/-- A step keeps the canonical form of BUF: only a WRBUF writes the buffer, and reset empties it. -/
theorem StepEffect.inv {s t : State} (h : StepEffect s t) (hs : Safety.Inv s) : Safety.Inv t := by
  cases h with
  | idle => exact hs
  | command c rest i _ _ _ he => exact he.wf hs
  | illegal => exact hs
  | reset => rfl

end Sys2Proof.Machine
end

section
/-! SUPPORT. What a byte holds after commands (spec 20_memory.md R49). -/

namespace Sys2Proof.Machine

theorem heldAfter_wrbuf_past_buffer {b : Nat} (hb : Config.bufLen ≤ b) (a : Nat) (before : Option Byte) (y : Byte) :
    Safety.heldAfter a before (.wrbuf b y) = before :=
  if_neg fun h => absurd h.2 (not_lt.mpr hb)

/-- What one answered command leaves at an address. -/
theorem Effect.read_buf {i : Instr} {s t : State} (h : Effect i s t) (a : Nat) :
    t.buf.read a = Safety.heldAfter a (s.buf.read a) i := by
  cases h with
  | ldpoly imm hi => subst hi; rfl
  | ldreg imm hi => subst hi; rfl
  | answer v hi => obtain ⟨rfl, -⟩ | ⟨rfl, -⟩ | ⟨rfl, -⟩ | ⟨rfl, -⟩ | ⟨addr, y, rfl, -⟩ := hi <;> rfl
  | wrbuf addr data hi haddr =>
    subst hi
    by_cases ha : addr = a
    · subst ha
      simp [Safety.heldAfter, haddr]
    · simp [Safety.heldAfter, ha, Memory.read_write_other s.buf data (Ne.symm ha)]
  | compute start len ys hi => subst hi; rfl
  | invalid start len hi => subst hi; rfl
  | insufficient hi =>
    obtain ⟨start, len, rfl, -⟩ | ⟨addr, data, rfl, haddr⟩ | ⟨addr, rfl, -⟩ := hi
    · rfl
    · exact (heldAfter_wrbuf_past_buffer haddr a _ data).symm
    · rfl

/-- Commands that are all answered: the first one is, and so are the others after it. -/
theorem runCommands_cons_eq_next {i : Instr} {cmds : List Instr} {s t : State}
    (h : Safety.runCommands (i :: cmds) s = .next t) :
    ∃ u, exec i s = .next u ∧ Safety.runCommands cmds u = .next t := by
  cases he : exec i s with
  | next u => exact ⟨u, rfl, (runCommands_cons_of_exec_next he cmds).symm.trans h⟩
  | fault f => exact absurd he (exec_ne_fault i s f)
  | refused r => cases (runCommands_cons_of_exec_refused he cmds).symm.trans h

theorem runCommands_read_buf {cmds : List Instr} {s t : State} (h : Safety.runCommands cmds s = .next t) (a : Nat) :
    t.buf.read a = Safety.latestWrite a (s.buf.read a) cmds := by
  induction cmds generalizing s with
  | nil => cases h; rfl
  | cons i cmds ih =>
    obtain ⟨u, he, hrun⟩ := runCommands_cons_eq_next h
    calc t.buf.read a = Safety.latestWrite a (u.buf.read a) cmds := ih hrun
      _ = Safety.latestWrite a (Safety.heldAfter a (s.buf.read a) i) cmds := by rw [(exec_next he).read_buf a]
      _ = Safety.latestWrite a (s.buf.read a) (i :: cmds) := rfl

end Sys2Proof.Machine
end

section
/-! SUPPORT. Refusals: the range read against `RangeWritten`, and that no step stops but at an unwritten byte (spec
20_memory.md R54, 60_exceptions.md R158). -/

namespace Sys2Proof.Machine

theorem rangeWritten_of_readRange {s : State} {start len : Nat} {ys : List Byte}
    (h : readRange s.buf start len = .ok ys) : Safety.RangeWritten s start len := by
  obtain ⟨hlen, hys⟩ := readRange_eq_ok.mp h
  intro k hk
  simp [hys k (hlen.symm ▸ hk)]

theorem not_rangeWritten_of_readRange {s : State} {start len a : Nat} (h : readRange s.buf start len = .error a) :
    ¬ Safety.RangeWritten s start len := by
  intro hw
  obtain ⟨ys, hys⟩ := readRange_ok_of_written hw
  cases h.symm.trans hys

/-- A COMPUTE that passes its checks over an unwritten byte is refused with the lowest one of its range (R54; log
entry 4). -/
theorem exec_compute_refused_at_lowest {s : State} {start len : Nat} (hp : s.poly ≠ 0#32)
    (hr : start + len ≤ Config.bufLen) (hw : ¬ Safety.RangeWritten s start len) :
    ∃ k, k < len ∧ s.buf.read (start + k) = none ∧ (∀ j, j < k → s.buf.read (start + j) ≠ none) ∧
      exec (.compute start len) s = .refused (.unwrittenByte (start + k)) := by
  cases hread : readRange s.buf start len with
  | ok ys => exact absurd (rangeWritten_of_readRange hread) hw
  | error a =>
    obtain ⟨hle, hlt, hnone, hlow⟩ := readRange_eq_error hread
    obtain ⟨k, rfl⟩ := Nat.exists_eq_add_of_le hle
    exact ⟨k, by omega, hnone, fun j hj => hlow _ (by omega) (by omega), exec_compute_refused hp hr hread⟩

/-- The two commands the model refuses, and when (R54). -/
theorem exec_refused_iff {i : Instr} {s : State} :
    (∃ r, exec i s = .refused r) ↔
      (∃ a, i = .rdbuf a ∧ a < Config.bufLen ∧ s.buf.read a = none) ∨
      (∃ start len, i = .compute start len ∧ s.poly ≠ 0#32 ∧ start + len ≤ Config.bufLen ∧
        ¬ Safety.RangeWritten s start len) := by
  constructor
  · rintro ⟨r, h⟩
    obtain ⟨a, hi, ha, hnone, -⟩ | ⟨start, len, a, hi, hp, hr, hread, -⟩ := exec_refused h
    · exact .inl ⟨a, hi, ha, hnone⟩
    · exact .inr ⟨start, len, hi, hp, hr, not_rangeWritten_of_readRange hread⟩
  · rintro (⟨a, rfl, ha, hnone⟩ | ⟨start, len, rfl, hp, hr, hw⟩)
    · exact ⟨_, exec_rdbuf_refused ha hnone⟩
    · obtain ⟨k, -, -, -, h⟩ := exec_compute_refused_at_lowest hp hr hw
      exact ⟨_, h⟩

/-- A refusal names an unwritten byte of the buffer. -/
theorem exec_refused_names_unwritten {i : Instr} {s : State} {r : Refusal} (h : exec i s = .refused r) :
    ∃ a, r = .unwrittenByte a ∧ a < Config.bufLen ∧ s.buf.read a = none := by
  obtain ⟨a, -, ha, hnone, hr⟩ | ⟨start, len, a, -, -, hfits, hread, hr⟩ := exec_refused h
  · exact ⟨a, hr, ha, hnone⟩
  · obtain ⟨-, hlt, hnone, -⟩ := readRange_eq_error hread
    exact ⟨a, hr, lt_of_lt_of_le hlt hfits, hnone⟩

/-- A zero-length range holds no unwritten byte, so its COMPUTE is always answered (R54). -/
theorem exec_compute_zero_length (s : State) (start : Nat) : ∃ t, exec (.compute start 0) s = .next t := by
  cases h : exec (.compute start 0) s with
  | next t => exact ⟨t, rfl⟩
  | fault f => exact absurd h (exec_ne_fault _ s f)
  | refused r =>
    obtain ⟨a, hi, -⟩ | ⟨start', len, hi, -, -, hw⟩ := exec_refused_iff.mp ⟨r, h⟩
    · cases hi
    · cases hi
      exact absurd (fun k hk => absurd hk (Nat.not_lt_zero k)) hw

/-- A step answers a next state, or it is the step of a command, with that command's outcome. -/
theorem step_next_or_exec (s : State) :
    (∃ t, step s = .next t) ∨ ∃ i rest, step s = exec i { s with inputs := rest } := by
  cases hin : s.inputs with
  | nil => exact .inl ⟨s, step_idle hin⟩
  | cons x rest =>
    cases x with
    | command c =>
      cases hd : decode c with
      | none => exact .inl ⟨_, step_illegal hin hd⟩
      | some i => exact .inr ⟨i, rest, step_command hin hd⟩
    | reset => exact .inl ⟨_, step_reset hin (.inl rfl)⟩
    | resetDuring c => exact .inl ⟨_, step_reset hin (.inr ⟨c, rfl⟩)⟩

theorem step_ne_fault (s : State) (f : Fault) : step s ≠ .fault f := by
  obtain ⟨t, h⟩ | ⟨i, rest, h⟩ := step_next_or_exec s
  · simp [h]
  · rw [h]
    exact exec_ne_fault i _ f

theorem step_refused_names_unwritten {s : State} {r : Refusal} (h : step s = .refused r) :
    ∃ a, r = .unwrittenByte a ∧ a < Config.bufLen ∧ s.buf.read a = none := by
  obtain ⟨t, hstep⟩ | ⟨i, rest, hstep⟩ := step_next_or_exec s
  · cases hstep.symm.trans h
  · exact exec_refused_names_unwritten (s := { s with inputs := rest }) (hstep.symm.trans h)

end Sys2Proof.Machine
end

section
/-! SUPPORT. A command issued twice (spec 20_memory.md R46). -/

namespace Sys2Proof.Machine

/-- The commands that only read (40_config_access.md R82 to R85, R87). -/
def IsRead (i : Instr) : Prop := i = .rdcrc ∨ i = .rdreg ∨ i = .rdpoly ∨ i = .rdstat ∨ ∃ a, i = .rdbuf a

/-- The data a read answers OK in this state; none where it does not answer OK, or is no read. -/
def readData (i : Instr) (s : State) : Option Word :=
  match i with
  | .rdcrc => some s.crc
  | .rdreg => some s.reg
  | .rdpoly => some s.poly
  | .rdstat => some s.status.word
  | .rdbuf a => if a < Config.bufLen then (s.buf.read a).map zextByte else none
  | .ldpoly _ | .ldreg _ | .compute _ _ | .wrbuf _ _ => none

theorem readData_respond (i : Instr) (v : Word) (s : State) : readData i (respond v s) = readData i s := by
  cases i <;> rfl

theorem readData_rdbuf {a : Nat} {s : State} {v : Word} :
    readData (.rdbuf a) s = some v ↔ a < Config.bufLen ∧ ∃ y, s.buf.read a = some y ∧ zextByte y = v := by
  simp [readData]

/-- A read with data answers it and changes nothing else. -/
theorem exec_of_readData {i : Instr} {s : State} {v : Word} (h : readData i s = some v) :
    exec i s = .next (respond v s) := by
  cases i with
  | rdcrc => cases h; exact exec_rdcrc s
  | rdreg => cases h; exact exec_rdreg s
  | rdpoly => cases h; exact exec_rdpoly s
  | rdstat => cases h; exact exec_rdstat s
  | rdbuf a =>
    obtain ⟨ha, y, hy, rfl⟩ := readData_rdbuf.mp h
    exact exec_rdbuf_ok ha hy
  | _ => cases h

/-- A read answered OK has its data, and answers it. -/
theorem Effect.readData_eq {i : Instr} {s t : State} {v : Word} (h : Effect i s t) (hi : IsRead i)
    (hr : t.rsps = s.rsps ++ [.ok v]) : readData i s = some v := by
  cases h with
  | answer w hw =>
    have hwv : w = v := by simpa using hr
    subst hwv
    obtain ⟨rfl, rfl⟩ | ⟨rfl, rfl⟩ | ⟨rfl, rfl⟩ | ⟨rfl, rfl⟩ | ⟨a, y, rfl, ha, hy, rfl⟩ := hw
    · rfl
    · rfl
    · rfl
    · rfl
    · exact readData_rdbuf.mpr ⟨ha, y, hy, rfl⟩
  | invalid => simp at hr
  | insufficient => simp at hr
  | _ => subst ‹i = _›; simp [IsRead] at hi

theorem afterFault_afterFault (t : Status) (f : Fault) (b : Bool) :
    (t.afterFault f b).afterFault f b = t.afterFault f b := by
  cases f <;> cases b <;> rfl

theorem raise_raise_sameBlock (f : Fault) (b : Bool) (s : State) :
    Safety.SameBlock (raise f b s) (raise f b (raise f b s)) :=
  ⟨rfl, rfl, rfl, (afterFault_afterFault s.status f b).symm, rfl⟩

theorem readRange_of_rangeHolds {s : State} {start : Nat} {bytes : List Byte}
    (h : Safety.RangeHolds s start bytes) : readRange s.buf start bytes.length = .ok bytes :=
  readRange_eq_ok.mpr ⟨rfl, h⟩

/-- A COMPUTE that leaves CRCV set passed both its checks and ran the divider over its range (R106, R148). -/
theorem exec_compute_of_crcv {s t : State} {start : Nat} {bytes : List Byte} (hh : Safety.RangeHolds s start bytes)
    (h : exec (.compute start bytes.length) s = .next t) (hc : t.status.crcv = true) :
    s.poly ≠ 0#32 ∧ start + bytes.length ≤ Config.bufLen ∧ t = finishCompute bytes s := by
  have hread := readRange_of_rangeHolds hh
  cases exec_next h with
  | compute start' len ys hi hp hr hy =>
    cases hi
    cases hread.symm.trans hy
    exact ⟨hp, hr, rfl⟩
  | invalid => simp at hc
  | insufficient => simp [Instr.isCompute] at hc
  | answer v hi => simp at hi
  | _ => contradiction

end Sys2Proof.Machine
end

section
/-! The obligations of 20_memory.md. -/

namespace Sys2Proof.Proofs

open Sys2Proof.Machine

/-- Settles O40, by the inversion lemma of `step`. -/
theorem bufferStaysCanonical : Obligations.BufferStaysCanonical :=
  fun _ _ hs h => (step_next h).inv hs

/-- Settles O19, by induction on the commands. -/
theorem bytesHoldTheLatestWrite : Obligations.BytesHoldTheLatestWrite :=
  fun _ _ _ => runCommands_read_buf

/-- Settles O20: a read leaves the data it reads, a write of the same byte and a second raise of the same fault change
nothing more, and the block step over joined lists is one after the other. -/
theorem repeatingACommand : Obligations.RepeatingACommand := by
  refine ⟨fun i s t v hi h hr => ?_, fun a y s t h => ?_, fun start bytes s t u hh ht hu hc => ?_⟩
  · have hv : readData i s = some v := (exec_next h).readData_eq hi hr
    cases (exec_of_readData hv).symm.trans h
    exact ⟨⟨rfl, rfl, rfl, rfl, rfl⟩, _, exec_of_readData ((readData_respond i v s).trans hv),
      ⟨rfl, rfl, rfl, rfl, rfl⟩, rfl⟩
  · rcases Nat.lt_or_ge a Config.bufLen with ha | ha
    · cases (exec_wrbuf_ok ha y s).symm.trans h
      exact ⟨_, exec_wrbuf_ok ha y _, rfl, rfl, rfl, rfl, (Memory.write_write_same s.buf a y).symm⟩
    · cases (exec_wrbuf_fault ha y s).symm.trans h
      exact ⟨_, exec_wrbuf_fault ha y _, raise_raise_sameBlock _ _ s⟩
  · obtain ⟨hp, hr, rfl⟩ := exec_compute_of_crcv hh ht hc
    cases (exec_compute_ok (s := finishCompute bytes s) hp hr (readRange_of_rangeHolds hh)).symm.trans hu
    exact (blockstep_append s.reg bytes bytes s.poly).symm

/-- Settles O36: each part is a law of the refusals, the reset part `step_reset`. -/
theorem onlyUnwrittenBytesAreRefused : Obligations.OnlyUnwrittenBytesAreRefused := by
  refine ⟨fun _ _ => exec_refused_iff, exec_compute_zero_length, fun s t rest hin h a => ?_, step_ne_fault,
    fun _ _ => step_refused_names_unwritten⟩
  cases (step_reset hin (.inl rfl)).symm.trans h
  exact Memory.read_nil a

/-- Settles O42: in the canonical form the written addresses and their bytes decide the list. -/
theorem canonicalBuffersReadingAlikeAreEqual : Obligations.CanonicalBuffersReadingAlikeAreEqual :=
  ⟨fun _ _ => Memory.eq_of_read_eq, fun _ _ => Memory.read_eq_none_of_ge⟩

/-- Settles O54: the range read stops at the first byte nobody has written. -/
theorem refusalNamesTheLowestUnwrittenByte : Obligations.RefusalNamesTheLowestUnwrittenByte :=
  fun _ _ _ => exec_compute_refused_at_lowest

end Sys2Proof.Proofs
end

section
/-! SUPPORT. A command word as a number, its `op` the top digit and its `pay` the low 32 bits (spec 30_encoding.md R60 to
R62): the decode function on that number (R70), what it refuses (R64), and that the encoder takes a decoded command back
to its word (R70). -/

namespace Sys2Proof.Machine

/-- The decode function of R70 on the number `op * 2^32 + pay`. -/
def decodeNumber (op pay : Nat) : Option Instr :=
  if op = 1 then some (.ldpoly (BitVec.ofNat 32 pay))
  else if op = 2 then some (.ldreg (BitVec.ofNat 32 pay))
  else if op = 3 then some (.compute (pay / 65536) (pay % 65536))
  else if op = 4 ∧ pay = 0 then some .rdcrc
  else if op = 5 ∧ pay = 0 then some .rdreg
  else if op = 6 ∧ pay = 0 then some .rdpoly
  else if op = 7 ∧ pay = 0 then some .rdstat
  else if op = 8 ∧ pay / 256 % 256 = 0 then some (.wrbuf (pay / 65536) (BitVec.ofNat 8 pay))
  else if op = 9 ∧ pay % 65536 = 0 then some (.rdbuf (pay / 65536))
  else none

section Fields

variable {c : CmdWord} {op pay : Nat} (hc : c.toNat = op * 2 ^ 32 + pay)
include hc

theorem immField_eq_ofNat : immField c = BitVec.ofNat 32 pay := by
  rw [← BitVec.toNat_inj, immField_toNat, BitVec.toNat_ofNat]
  omega

theorem lenField_eq_mod : lenField c = pay % 65536 := by
  rw [lenField_eq]
  omega

theorem dataField_eq_ofNat : dataField c = BitVec.ofNat 8 pay := by
  rw [← BitVec.toNat_inj, dataField_toNat, BitVec.toNat_ofNat]
  omega

theorem zeroFieldB_eq_zero_iff : zeroFieldB c = 0#8 ↔ pay / 256 % 256 = 0 := by
  rw [← BitVec.toNat_inj, zeroFieldB_toNat, BitVec.toNat_ofNat]
  omega

theorem zeroFieldA_eq_zero_iff : zeroFieldA c = 0#16 ↔ pay % 65536 = 0 := by
  rw [← BitVec.toNat_inj, zeroFieldA_toNat, BitVec.toNat_ofNat]
  omega

variable (hpay : pay < 2 ^ 32)
include hpay

theorem opField_eq_iff (k : Nat) (hk : k < 16) : opField c = BitVec.ofNat 4 k ↔ op = k := by
  rw [← BitVec.toNat_inj, opField_toNat, BitVec.toNat_ofNat, Nat.mod_eq_of_lt hk]
  omega

theorem highField_eq_div : highField c = pay / 65536 := by
  rw [highField_eq]
  omega

theorem zeroFieldN_eq_zero_iff : zeroFieldN c = 0#32 ↔ pay = 0 := by
  rw [← BitVec.toNat_inj, zeroFieldN_toNat, BitVec.toNat_ofNat]
  omega

/-- The decoder reads a word as R70 reads its number. -/
theorem decode_eq_decodeNumber : decode c = decodeNumber op pay := by
  have hop := opField_eq_iff hc hpay
  simp only [decode, decodeNumber, hop 1 (by decide), hop 2 (by decide), hop 3 (by decide), hop 4 (by decide),
    hop 5 (by decide), hop 6 (by decide), hop 7 (by decide), hop 8 (by decide), hop 9 (by decide),
    immField_eq_ofNat hc, highField_eq_div hc hpay, lenField_eq_mod hc, dataField_eq_ofNat hc,
    zeroFieldN_eq_zero_iff hc hpay, zeroFieldB_eq_zero_iff hc, zeroFieldA_eq_zero_iff hc]

end Fields

/-- Every word is the number of its own top digit and low 32 bits. -/
theorem decode_eq_decodeNumber_div_mod (c : CmdWord) : decode c = decodeNumber (c.toNat / 2 ^ 32) (c.toNat % 2 ^ 32) :=
  decode_eq_decodeNumber (by omega) (by omega)

theorem ite_some_eq_none_iff {α : Type} {p : Prop} [Decidable p] {a : α} {o : Option α} :
    (if p then some a else o) = none ↔ ¬p ∧ o = none := by
  split <;> simp [*]

/-- The words without a command are R64's. -/
theorem decodeNumber_eq_none_iff {op pay : Nat} :
    decodeNumber op pay = none ↔
      op = 0 ∨ 10 ≤ op ∨ (4 ≤ op ∧ op ≤ 7 ∧ pay ≠ 0) ∨ (op = 8 ∧ pay / 256 % 256 ≠ 0) ∨
        (op = 9 ∧ pay % 65536 ≠ 0) := by
  simp only [decodeNumber, ite_some_eq_none_iff, and_true]
  omega

/-- The encoder takes a command read from a number back to that number, and the command's operands fit. -/
theorem encode_of_decodeNumber {op pay : Nat} {i : Instr} (hpay : pay < 2 ^ 32) (h : decodeNumber op pay = some i) :
    i.wellFormed = true ∧ (encode i).toNat = op * 2 ^ 32 + pay := by
  have hhigh : pay / 65536 < 65536 := by omega
  unfold decodeNumber at h
  split_ifs at h with _ _ _ h4 h5 h6 h7 <;> cases h
  · refine ⟨rfl, ?_⟩
    rw [encode_ldpoly_toNat, BitVec.toNat_ofNat]
    omega
  · refine ⟨rfl, ?_⟩
    rw [encode_ldreg_toNat, BitVec.toNat_ofNat]
    omega
  · refine ⟨wellFormed_compute.mpr ⟨hhigh, Nat.mod_lt _ (by decide)⟩, ?_⟩
    rw [encode_compute_toNat]
    omega
  · obtain ⟨rfl, rfl⟩ := h4
    decide
  · obtain ⟨rfl, rfl⟩ := h5
    decide
  · obtain ⟨rfl, rfl⟩ := h6
    decide
  · obtain ⟨rfl, rfl⟩ := h7
    decide
  · refine ⟨fits16_eq_true.mpr hhigh, ?_⟩
    rw [encode_wrbuf_toNat, BitVec.toNat_ofNat]
    omega
  · refine ⟨fits16_eq_true.mpr hhigh, ?_⟩
    rw [encode_rdbuf_toNat]
    omega

theorem encode_of_decode {c : CmdWord} {i : Instr} (h : decode c = some i) : i.wellFormed = true ∧ encode i = c := by
  rw [decode_eq_decodeNumber_div_mod] at h
  obtain ⟨hw, he⟩ := encode_of_decodeNumber (Nat.mod_lt _ (by decide)) h
  exact ⟨hw, BitVec.eq_of_toNat_eq (by omega)⟩

end Sys2Proof.Machine
end

section
/-! SUPPORT. The opcode map of R63 by the formats of R61: a word selects a row when its `op` is the row's and its `zero`
field, where the format has one, is 0 (spec 30_encoding.md R61, R63, section 2). -/

namespace Sys2Proof.Machine

/-- A row of format V or R: no `zero` field. -/
def rowV (mnemonic : String) (op : BitVec 4) : OpcodeRow := ⟨mnemonic, 0xF#4 ++ 0#32, op ++ 0#32⟩

/-- A row of format N: `zero` is bits 31 to 0. -/
def rowN (mnemonic : String) (op : BitVec 4) : OpcodeRow := ⟨mnemonic, 0xF#4 ++ 0xFFFFFFFF#32, op ++ 0#32⟩

/-- A row of format B: `zero` is bits 15 to 8. -/
def rowB (mnemonic : String) (op : BitVec 4) : OpcodeRow := ⟨mnemonic, 0xF#4 ++ 0x0000FF00#32, op ++ 0#32⟩

/-- A row of format A: `zero` is bits 15 to 0. -/
def rowA (mnemonic : String) (op : BitVec 4) : OpcodeRow := ⟨mnemonic, 0xF#4 ++ 0x0000FFFF#32, op ++ 0#32⟩

/-- The table's masks and matches are those of the formats. -/
theorem opcodeMap_eq_rows :
    opcodeMap = [rowV "LDPOLY" 0x1#4, rowV "LDREG" 0x2#4, rowV "COMPUTE" 0x3#4, rowN "RDCRC" 0x4#4,
      rowN "RDREG" 0x5#4, rowN "RDPOLY" 0x6#4, rowN "RDSTAT" 0x7#4, rowB "WRBUF" 0x8#4, rowA "RDBUF" 0x9#4] := rfl

@[simp] theorem rowV_mnemonic (m : String) (op : BitVec 4) : (rowV m op).mnemonic = m := rfl
@[simp] theorem rowN_mnemonic (m : String) (op : BitVec 4) : (rowN m op).mnemonic = m := rfl
@[simp] theorem rowB_mnemonic (m : String) (op : BitVec 4) : (rowB m op).mnemonic = m := rfl
@[simp] theorem rowA_mnemonic (m : String) (op : BitVec 4) : (rowA m op).mnemonic = m := rfl

theorem append_eq_append_iff {m n : Nat} {a c : BitVec m} {b d : BitVec n} : a ++ b = c ++ d ↔ a = c ∧ b = d := by
  refine ⟨fun h => ⟨?_, ?_⟩, fun ⟨ha, hb⟩ => by rw [ha, hb]⟩
  · simpa [BitVec.extractLsb'_append_eq_left] using congrArg (BitVec.extractLsb' n m) h
  · simpa [BitVec.extractLsb'_append_eq_right] using congrArg (BitVec.extractLsb' 0 n) h

theorem opField_append_immField (c : CmdWord) : opField c ++ immField c = c :=
  BitVec.extractLsb'_append_extractLsb' (w := 4) (len := 32)

theorem append_and_append_eq_zero_iff {m n : Nat} {a c : BitVec m} {b d : BitVec n} :
    (a ++ b) &&& (c ++ d) = 0#m ++ 0#n ↔ a &&& c = 0#m ∧ b &&& d = 0#n := by
  rw [Laws.TableRow.append_and_append, append_eq_append_iff]

theorem immField_eq_append (c : CmdWord) : immField c = c.extractLsb' 16 16 ++ zeroFieldA c :=
  (BitVec.extractLsb'_append_extractLsb'_eq_extractLsb' (x := c) (Nat.zero_add 16).symm).symm

theorem zeroFieldA_eq_append (c : CmdWord) : zeroFieldA c = zeroFieldB c ++ dataField c :=
  (BitVec.extractLsb'_append_extractLsb'_eq_extractLsb' (x := c) (Nat.zero_add 8).symm).symm

theorem immField_and_maskA (c : CmdWord) : immField c &&& 0x0000FFFF#32 = 0#32 ↔ zeroFieldA c = 0#16 := by
  have hA : zeroFieldA c &&& 0xFFFF#16 = zeroFieldA c := BitVec.and_allOnes
  rw [immField_eq_append]
  refine (append_and_append_eq_zero_iff (c := 0#16) (d := 0xFFFF#16)).trans ?_
  rw [hA, and_iff_right BitVec.and_zero]

theorem immField_and_maskB (c : CmdWord) : immField c &&& 0x0000FF00#32 = 0#32 ↔ zeroFieldB c = 0#8 := by
  have hB : zeroFieldB c &&& 0xFF#8 = zeroFieldB c := BitVec.and_allOnes
  rw [immField_eq_append, zeroFieldA_eq_append]
  refine (append_and_append_eq_zero_iff (c := 0#16) (d := 0xFF#8 ++ 0#8)).trans ?_
  rw [and_iff_right BitVec.and_zero]
  refine append_and_append_eq_zero_iff.trans ?_
  rw [hB, and_iff_left BitVec.and_zero]

/-- A word under a row's mask, the mask cut at bit 32: the whole of `op` is compared, and what the mask keeps below. -/
theorem selects_iff (c : CmdWord) (m : String) (op : BitVec 4) (mask : BitVec 32) :
    OpcodeRow.selects ⟨m, 0xF#4 ++ mask, op ++ 0#32⟩ c = true ↔ opField c = op ∧ immField c &&& mask = 0#32 := by
  have hop : opField c &&& 0xF#4 = opField c := BitVec.and_allOnes
  rw [OpcodeRow.selects, beq_iff_eq, ← append_eq_append_iff, ← hop, ← Laws.TableRow.append_and_append,
    opField_append_immField]

@[simp] theorem rowV_selects (c : CmdWord) (m : String) (op : BitVec 4) :
    (rowV m op).selects c = true ↔ opField c = op := by
  rw [rowV, selects_iff, BitVec.and_zero]
  exact and_iff_left rfl

@[simp] theorem rowN_selects (c : CmdWord) (m : String) (op : BitVec 4) :
    (rowN m op).selects c = true ↔ opField c = op ∧ zeroFieldN c = 0#32 := by
  have h : immField c &&& 0xFFFFFFFF#32 = zeroFieldN c := BitVec.and_allOnes
  rw [rowN, selects_iff, h]

@[simp] theorem rowB_selects (c : CmdWord) (m : String) (op : BitVec 4) :
    (rowB m op).selects c = true ↔ opField c = op ∧ zeroFieldB c = 0#8 := by
  rw [rowB, selects_iff, immField_and_maskB]

@[simp] theorem rowA_selects (c : CmdWord) (m : String) (op : BitVec 4) :
    (rowA m op).selects c = true ↔ opField c = op ∧ zeroFieldA c = 0#16 := by
  rw [rowA, selects_iff, immField_and_maskA]

end Sys2Proof.Machine
end

section
/-! SUPPORT. The assembler and the expansion of FILL (spec 30_encoding.md R68, R69). -/

namespace Sys2Proof.Machine

/-- The assembler's word of a command, said once (R68). -/
theorem assembleInstr_eq_some {i : Instr} {w : CmdWord} :
    assembleInstr i = some w ↔ i.wellFormed = true ∧ encode i = w := by
  simp [assembleInstr]

/-- The assembler's words of a program, said once: the encoded commands, where every operand fits (R68). -/
theorem assembleAll_eq_some {cmds : List Instr} {words : List CmdWord} :
    assembleAll cmds = some words ↔ (∀ i ∈ cmds, i.wellFormed = true) ∧ cmds.map encode = words := by
  induction cmds generalizing words with
  | nil => simp [assembleAll]
  | cons i cmds ih =>
    simp only [assembleAll, Option.bind_eq_some_iff, Option.map_eq_some_iff, assembleInstr_eq_some, ih,
      List.forall_mem_cons, List.map_cons]
    constructor
    · rintro ⟨_, ⟨hi, rfl⟩, _, ⟨hcmds, rfl⟩, rfl⟩
      exact ⟨⟨hi, hcmds⟩, rfl⟩
    · rintro ⟨⟨hi, hcmds⟩, rfl⟩
      exact ⟨_, ⟨hi, rfl⟩, _, ⟨hcmds, rfl⟩, rfl⟩

theorem map_decode_map_encode {cmds : List Instr} (h : ∀ i ∈ cmds, i.wellFormed = true) :
    (cmds.map encode).map decode = cmds.map some := by
  rw [List.map_map]
  exact List.map_congr_left fun i hi => decode_encode (h i hi)

/-- FILL's first write, then the rest of its range (R69). -/
theorem expandFill_succ (a n : Nat) (y : Byte) :
    expandFill a (n + 1) y = .wrbuf a y :: expandFill (a + 1) n y := by
  simp [expandFill, List.range_succ_eq_map, Nat.add_assoc, Nat.add_comm 1]

/-- What a FILL inside the buffer does to a state (R69, R86): its byte in its range and nowhere else, one OK for each
byte, nothing else changed. -/
structure Filled (a n : Nat) (y : Byte) (s t : State) : Prop where
  buf : ∀ b, t.buf.read b = if a ≤ b ∧ b < a + n then some y else s.buf.read b
  rsps : t.rsps = s.rsps ++ List.replicate n (.ok 0#32)
  poly : t.poly = s.poly
  reg : t.reg = s.reg
  crc : t.crc = s.crc
  status : t.status = s.status

theorem filled_zero (a : Nat) (y : Byte) (s : State) : Filled a 0 y s s where
  buf _ := (if_neg (by omega)).symm
  rsps := (List.append_nil s.rsps).symm
  poly := rfl
  reg := rfl
  crc := rfl
  status := rfl

/-- The write of the lowest byte and the FILL of the rest. -/
theorem Filled.succ {a n : Nat} {y : Byte} {s t : State}
    (h : Filled (a + 1) n y (respond 0#32 { s with buf := s.buf.write a y }) t) : Filled a (n + 1) y s t where
  buf b := by
    rw [h.buf, respond_buf]
    by_cases hb : b = a
    · subst hb
      rw [if_neg (by omega), if_pos (by omega)]
      exact Memory.read_write_same s.buf b y
    · exact if_congr (by omega) rfl (Memory.read_write_other s.buf y hb)
  rsps := by
    rw [h.rsps, respond_rsps, List.append_assoc, List.singleton_append, List.replicate_succ]
  poly := h.poly
  reg := h.reg
  crc := h.crc
  status := h.status

theorem runCommands_expandFill (a n : Nat) (y : Byte) (s : State) (h : a + n ≤ Config.bufLen) :
    ∃ t, Safety.runCommands (expandFill a n y) s = .next t ∧ Filled a n y s t := by
  induction n generalizing a s with
  | zero => exact ⟨s, rfl, filled_zero a y s⟩
  | succ n ih =>
    obtain ⟨t, hrun, hfilled⟩ := ih (a + 1) (respond 0#32 { s with buf := s.buf.write a y }) (by omega)
    refine ⟨t, ?_, hfilled.succ⟩
    rw [expandFill_succ, runCommands_cons_of_exec_next (exec_wrbuf_ok (by omega) y s), hrun]

end Sys2Proof.Machine
end

section
/-! SUPPORT. The response of a command word: its two fields (spec 30_encoding.md R65, R66), the data of an OK answer, and
the cause of each fault (60_exceptions.md R140 to R143). -/

namespace Sys2Proof.Machine

theorem Response.word_toNat (r : Response) : r.word.toNat = r.st.toNat * 2 ^ 32 + r.dat.toNat := append_toNat _ _

/-- The status of a response says which fault it carries (R66). -/
theorem Response.st_eq_code_iff {r : Response} {f : Fault} : r.st = f.code ↔ r = .fault f := by
  cases r with
  | ok v => cases f <;> simp [Response.st, Fault.code]
  | fault g => cases f <;> cases g <;> simp [Response.st, Fault.code]

theorem Response.st_eq_zero_iff {r : Response} : r.st = 0#4 ↔ ∃ v, r = .ok v := by
  cases r with
  | ok v => simp [Response.st]
  | fault f => cases f <;> simp [Response.st, Fault.code]

theorem Response.dat_eq_zero_of_st_ne {r : Response} (h : r.st ≠ 0#4) : r.dat = 0#32 := by
  cases r with
  | ok v => exact absurd rfl h
  | fault f => rfl

theorem Response.st_le_three (r : Response) : r.st.toNat ≤ 3 := by
  cases r with
  | ok v => exact Nat.zero_le 3
  | fault f => cases f <;> decide

theorem ok_answer_inj {rsps : List Response} {v w : Word} (h : rsps ++ [.ok v] = rsps ++ [.ok w]) : w = v := by
  simpa [eq_comm] using h

/-- A command without fault answers OK with the data of the table of R65. -/
theorem Effect.answers_okData {i : Instr} {s t : State} {v : Word} (h : Effect i s t)
    (hr : t.rsps = s.rsps ++ [.ok v]) : v = Safety.okData i s t := by
  cases h with
  | answer w hw =>
    obtain rfl : v = w := ok_answer_inj hr
    obtain ⟨rfl, rfl⟩ | ⟨rfl, rfl⟩ | ⟨rfl, rfl⟩ | ⟨rfl, rfl⟩ | ⟨a, y, rfl, -, hy, rfl⟩ := hw
    · rfl
    · rfl
    · rfl
    · rfl
    · simp [Safety.okData, hy]
  | invalid => simp at hr
  | insufficient => simp at hr
  | _ => subst ‹i = _›; exact ok_answer_inj hr

/-- The CRC a COMPUTE answers OK is the drained remainder of its range (R65, R106). -/
theorem exec_compute_answers_drain {s t : State} {start : Nat} {bytes : List Byte} {v : Word}
    (hh : Safety.RangeHolds s start bytes) (h : exec (.compute start bytes.length) s = .next t)
    (hr : t.rsps = s.rsps ++ [.ok v]) : v = drain (blockstep s.reg bytes s.poly) s.poly := by
  have hcrcv := ((exec_next h).crcv_iff_of_isCompute rfl).mpr ⟨v, hr⟩
  obtain ⟨-, -, rfl⟩ := exec_compute_of_crcv hh h hcrcv
  exact (exec_next h).answers_okData hr

/-- InvalidPolynomial is COMPUTE's, at POLY = 0 (R141). -/
theorem exec_answers_invalidPolynomial_iff {i : Instr} {s t : State} (h : exec i s = .next t) :
    t.rsps = s.rsps ++ [.fault .invalidPolynomial] ↔ s.poly = 0#32 ∧ ∃ start len, i = .compute start len := by
  cases exec_next h with
  | compute start len ys hi hp => simp [hp]
  | invalid start len hi hp => simp [hi, hp]
  | insufficient hi =>
    obtain ⟨start, len, rfl, hp, -⟩ | ⟨a, y, rfl, -⟩ | ⟨a, rfl, -⟩ := hi
    · simp [hp]
    · simp
    · simp
  | answer v hi =>
    obtain ⟨rfl, -⟩ | ⟨rfl, -⟩ | ⟨rfl, -⟩ | ⟨rfl, -⟩ | ⟨a, y, rfl, -⟩ := hi <;> simp
  | _ => subst ‹i = _›; simp

/-- No command answers IllegalCommand (R143). -/
theorem Effect.not_answers_illegalCommand {i : Instr} {s t : State} (h : Effect i s t) :
    t.rsps ≠ s.rsps ++ [.fault .illegalCommand] := by
  cases h <;> simp

section StepOfAWord

variable {s t : State} {c : CmdWord} {rest : List HostInput} (hin : s.inputs = .command c :: rest)
  (h : step s = .next t)
include hin h

/-- The step of a command word: its command's outcome, or the raise of IllegalCommand (R64, R143). -/
theorem step_word_cases :
    (∃ i, decode c = some i ∧ exec i { s with inputs := rest } = .next t) ∨
      (decode c = none ∧ t = raise .illegalCommand false { s with inputs := rest }) := by
  cases hd : decode c with
  | none =>
    cases (step_illegal hin hd).symm.trans h
    exact .inr ⟨rfl, rfl⟩
  | some i => exact .inl ⟨i, rfl, (step_command hin hd).symm.trans h⟩

theorem step_word_streams : t.inputs = rest ∧ ∃ r, t.rsps = s.rsps ++ [r] := by
  obtain ⟨i, -, he⟩ | ⟨-, rfl⟩ := step_word_cases hin h
  · exact (exec_next he).streams
  · exact ⟨rfl, _, rfl⟩

theorem step_answers_invalidPolynomial_iff :
    t.rsps = s.rsps ++ [.fault .invalidPolynomial] ↔
      s.poly = 0#32 ∧ ∃ start len, decode c = some (.compute start len) := by
  obtain ⟨i, hd, he⟩ | ⟨hd, rfl⟩ := step_word_cases hin h
  · simpa [hd] using exec_answers_invalidPolynomial_iff he
  · simp [hd]

theorem step_answers_insufficientData_iff :
    t.rsps = s.rsps ++ [.fault .insufficientData] ↔
      (s.poly ≠ 0#32 ∧ ∃ start len, decode c = some (.compute start len) ∧ Config.bufLen < start + len) ∨
      (∃ a y, decode c = some (.wrbuf a y) ∧ Config.bufLen ≤ a) ∨
      (∃ a, decode c = some (.rdbuf a) ∧ Config.bufLen ≤ a) := by
  obtain ⟨i, hd, he⟩ | ⟨hd, rfl⟩ := step_word_cases hin h
  · rw [← execWith_thisHardware] at he
    have hiff := (execWith_answers_insufficientData_iff he).trans namesBytePastBuffer_iff
    simpa [hd, and_left_comm] using hiff
  · simp [hd]

theorem step_answers_illegalCommand_iff :
    t.rsps = s.rsps ++ [.fault .illegalCommand] ↔ decode c = none := by
  obtain ⟨i, hd, he⟩ | ⟨hd, rfl⟩ := step_word_cases hin h
  · simpa [hd] using (exec_next he).not_answers_illegalCommand
  · simp [hd]

theorem step_sets_sticky {f : Fault} (hr : t.rsps = s.rsps ++ [.fault f]) : t.status.sticky f = true :=
  ((step_next h).sticky_iff (by simp [hin]) (by simp [hin]) f).mpr (.inr hr)

end StepOfAWord

end Sys2Proof.Machine
end

section
/-! The obligations of 30_encoding.md. -/

namespace Sys2Proof.Proofs

open Sys2Proof.Machine

/-- Settles O1: the decoder and the encoder as arithmetic on the word's number, and from that each the inverse of the
other. -/
theorem decodeAndEncodeAreInverse : Obligations.DecodeAndEncodeAreInverse := by
  refine ⟨fun _ _ _ => decode_eq_decodeNumber, fun v => ⟨encode_ldpoly_toNat v, encode_ldreg_toNat v⟩,
    fun s n hs hn => ?_, by decide, fun a y ha => ⟨?_, ?_⟩, fun _ => decode_encode, fun _ _ => encode_of_decode⟩
  · rw [encode_compute_toNat, Nat.mod_eq_of_lt hs, Nat.mod_eq_of_lt hn]
  · rw [encode_wrbuf_toNat, Nat.mod_eq_of_lt ha]
  · rw [encode_rdbuf_toNat, Nat.mod_eq_of_lt ha]

/-- Settles O2: R64's words are the ones the decoder refuses, and the step of such a word is the raise of
IllegalCommand. -/
theorem illegalWordsRaiseIllegalCommand : Obligations.IllegalWordsRaiseIllegalCommand := by
  refine ⟨fun c op pay hc hpay => ?_, fun s c rest hin hd => ⟨_, step_illegal hin hd, raise_rsps _ _ _⟩⟩
  rw [decode_eq_decodeNumber hc hpay]
  exact decodeNumber_eq_none_iff

/-- Settles O3, along the decoder's arms: a row selects a word under the condition of its command's arm, and no two rows
share an `op`. -/
theorem oneOpcodeRowPerLegalWord : Obligations.OneOpcodeRowPerLegalWord := by
  intro c
  rw [opcodeMap_eq_rows, decode]
  split_ifs <;> simp [*, Instr.mnemonic]

/-- Settles O5, by `assembleAll_eq_some`: the words are the encoded commands, exactly where every operand fits. -/
theorem assembledWordsDecodeBack : Obligations.AssembledWordsDecodeBack := by
  refine fun cmds => ⟨fun words h => ?_, fun ⟨_, h⟩ => (assembleAll_eq_some.mp h).1, fun h =>
    ⟨_, assembleAll_eq_some.mpr ⟨h, rfl⟩⟩⟩
  obtain ⟨hw, rfl⟩ := assembleAll_eq_some.mp h
  exact map_decode_map_encode hw

/-- Settles O6, by induction on the number of bytes (`runCommands_expandFill`). -/
theorem fillWritesItsRange : Obligations.FillWritesItsRange := by
  refine ⟨rfl, fun a n y s h => ?_⟩
  obtain ⟨t, hrun, hfilled⟩ := runCommands_expandFill a n y s h
  exact ⟨t, hrun, hfilled.buf, hfilled.rsps, hfilled.poly, hfilled.reg, hfilled.crc, hfilled.status⟩

/-- Settles O9: a word runs its command or raises IllegalCommand, and either way gives one response. -/
theorem oneResponsePerCommand : Obligations.OneResponsePerCommand := by
  intro s t c rest hin h
  obtain ⟨hrest, r, hr⟩ := step_word_streams hin h
  refine ⟨hrest, r, hr, r.word_toNat, Response.dat_eq_zero_of_st_ne, fun hst => ?_⟩
  obtain ⟨v, rfl⟩ := Response.st_eq_zero_iff.mp hst
  obtain ⟨i, hd, he⟩ | ⟨-, rfl⟩ := step_word_cases hin h
  · refine ⟨i, hd, (exec_next he).answers_okData hr, ?_⟩
    rintro start bytes rfl hh
    exact exec_compute_answers_drain (s := { s with inputs := rest }) hh he hr
  · simp at hr

/-- Settles O10: the status is the fault answered, and each fault is answered exactly on its cause. -/
theorem faultsAreRaisedExactlyOnTheirCause : Obligations.FaultsAreRaisedExactlyOnTheirCause := by
  intro s t c rest r hin h hr
  have hst (f : Fault) : r.st = f.code ↔ t.rsps = s.rsps ++ [.fault f] := by
    simp [Response.st_eq_code_iff, hr]
  have hsticky (f : Fault) : r.st = f.code → t.status.sticky f = true :=
    fun hf => step_sets_sticky hin h ((hst f).mp hf)
  exact ⟨(hst .invalidPolynomial).trans (step_answers_invalidPolynomial_iff hin h),
    (hst .insufficientData).trans (step_answers_insufficientData_iff hin h),
    (hst .illegalCommand).trans (step_answers_illegalCommand_iff hin h),
    r.st_le_three, Response.dat_eq_zero_of_st_ne,
    hsticky .invalidPolynomial, hsticky .insufficientData, hsticky .illegalCommand⟩

/-- Settles O4, by running the decoder on each word. -/
theorem sampleWordsDecodeAsTheSpecSays : Obligations.SampleWordsDecodeAsTheSpecSays := by
  unfold Obligations.SampleWordsDecodeAsTheSpecSays
  decide

end Sys2Proof.Proofs
end

section
/-! SUPPORT. What a read command answers and leaves (spec 40_config_access.md R82 to R85, R87), what a COMPUTE leaves for
a read after it, and which commands keep POLY. -/

namespace Sys2Proof.Machine

theorem respond_sameBlock (v : Word) (s : State) : Safety.SameBlock s (respond v s) := ⟨rfl, rfl, rfl, rfl, rfl⟩

/-- A read with data ends with that data as its answer, and no state of the block changes. -/
theorem exec_read_answers {i : Instr} {s : State} {v : Word} (h : readData i s = some v) :
    ∃ t, exec i s = .next t ∧ t.rsps = s.rsps ++ [.ok v] ∧ Safety.SameBlock s t ∧ t.inputs = s.inputs :=
  ⟨_, exec_of_readData h, respond_rsps v s, respond_sameBlock v s, respond_inputs v s⟩

theorem zextByte_toNat (y : Byte) : (zextByte y).toNat = y.toNat :=
  BitVec.toNat_setWidth_of_le (by decide)

/-- A COMPUTE answers the value it leaves in CRC, or it is the raise of a fault (R106). -/
theorem Effect.compute_answers_crc_or_raise {start len : Nat} {s t : State} (h : Effect (.compute start len) s t) :
    t.rsps = s.rsps ++ [.ok t.crc] ∨ ∃ f, t = raise f true s := by
  obtain hok | hfault := h.answersOk_or_raise
  · obtain ⟨v, hr⟩ := hok.rsps
    obtain rfl : v = t.crc := h.answers_okData hr
    exact .inl hr
  · exact .inr hfault

/-- Only LDPOLY writes POLY (R31). -/
theorem Effect.poly_eq_of_not_ldpoly {i : Instr} {s t : State} (h : Effect i s t) (hi : ∀ v, i ≠ .ldpoly v) :
    t.poly = s.poly := by
  by_contra hne
  exact hi _ (h.eq_ldpoly_of_poly_ne hne)

theorem runCommands_poly_of_no_ldpoly {cmds : List Instr} {s t : State} (hc : ∀ i ∈ cmds, ∀ v, i ≠ .ldpoly v)
    (h : Safety.runCommands cmds s = .next t) : t.poly = s.poly := by
  induction cmds generalizing s with
  | nil => cases h; rfl
  | cons i cmds ih =>
    obtain ⟨hi, hcmds⟩ := List.forall_mem_cons.mp hc
    obtain ⟨u, he, hrun⟩ := runCommands_cons_eq_next h
    exact (ih hcmds hrun).trans ((exec_next he).poly_eq_of_not_ldpoly hi)

end Sys2Proof.Machine
end

section
/-! The obligations of 40_config_access.md. -/

namespace Sys2Proof.Proofs

open Sys2Proof.Machine

/-- Settles O17, by the two sides of `BUF_LEN`: a write of one byte, or the raise of InsufficientData. -/
theorem wrbufWritesOneByte : Obligations.WrbufWritesOneByte := by
  intro a y s
  rcases Nat.lt_or_ge a Config.bufLen with ha | ha
  · refine ⟨_, exec_wrbuf_ok ha y s, rfl, rfl, rfl, rfl, rfl, rfl, rfl, fun _ => ⟨fun b => ?_, rfl, rfl⟩,
      fun hge => absurd ha (not_lt.mpr hge)⟩
    split
    case isTrue hb => subst hb; exact Memory.read_write_same s.buf b y
    case isFalse hb => exact Memory.read_write_other s.buf y hb
  · exact ⟨_, exec_wrbuf_fault ha y s, rfl, rfl, rfl, rfl, rfl, rfl, rfl,
      fun hlt => absurd hlt (not_lt.mpr ha), fun _ => ⟨fun _ => rfl, rfl, rfl⟩⟩

/-- Settles O18: a written byte is the data of the read, past the buffer the fault is raised, and an unwritten byte is
refused. -/
theorem rdbufReadsOneByte : Obligations.RdbufReadsOneByte := by
  refine fun a s => ⟨fun y ha hy => ?_, fun ha => ?_, exec_rdbuf_refused⟩
  · obtain ⟨t, he, hr, hsame, hin⟩ := exec_read_answers (readData_rdbuf.mpr ⟨ha, y, hy, rfl⟩)
    exact ⟨t, _, he, hr, zextByte_toNat y, hsame, hin⟩
  · exact ⟨_, exec_rdbuf_fault ha s, rfl, rfl, rfl, rfl, rfl, fun _ => rfl, rfl⟩

/-- Settles O11: the answer after the write of POLY alone. -/
theorem ldpolyLoadsThePolynomial : Obligations.LdpolyLoadsThePolynomial :=
  fun imm s => ⟨_, exec_ldpoly imm s, rfl, rfl, rfl, rfl, rfl, fun _ => rfl, rfl⟩

/-- Settles O12: the answer after the write of REG alone. -/
theorem ldregLoadsTheRegister : Obligations.LdregLoadsTheRegister :=
  fun imm s => ⟨_, exec_ldreg imm s, rfl, rfl, rfl, rfl, rfl, fun _ => rfl, rfl⟩

/-- Settles O13: RDCRC is a read of CRC, where a COMPUTE left its answer, or a fault left what was there. -/
theorem rdcrcAnswersTheResult : Obligations.RdcrcAnswersTheResult := by
  refine ⟨fun s => exec_read_answers rfl, ⟨_, exec_rdcrc _, rfl⟩, fun s t start len h => ⟨_, exec_rdcrc t, ?_⟩⟩
  obtain hok | ⟨f, rfl⟩ := (exec_next h).compute_answers_crc_or_raise
  · exact .inl ⟨t.crc, hok, respond_rsps _ _⟩
  · exact .inr ⟨f, raise_rsps f true s, by simp, respond_rsps _ _⟩

/-- Settles O14: RDREG is a read of REG, where a COMPUTE that ran the divider left the value before the drain. -/
theorem rdregAnswersTheCarriedRegister : Obligations.RdregAnswersTheCarriedRegister := by
  refine ⟨fun s => exec_read_answers rfl, fun s t start bytes hh h hc => ?_⟩
  obtain ⟨-, -, rfl⟩ := exec_compute_of_crcv hh h hc
  exact ⟨_, exec_rdreg _, respond_rsps _ _⟩

/-- Settles O15: RDPOLY is a read of POLY, which the commands after the LDPOLY keep. -/
theorem rdpolyAnswersThePolynomial : Obligations.RdpolyAnswersThePolynomial := by
  refine ⟨fun s => exec_read_answers rfl, ⟨_, exec_rdpoly _, rfl⟩, fun imm cmds s t hc h => ?_⟩
  rw [runCommands_cons_of_exec_next (exec_ldpoly imm s)] at h
  obtain rfl : t.poly = imm := runCommands_poly_of_no_ldpoly hc h
  exact ⟨_, exec_rdpoly t, respond_rsps _ _⟩

/-- Settles O16: RDSTAT is a read of the word of STATUS, each flag at its place (`Status.word_toNat`). -/
theorem rdstatAnswersTheFlags : Obligations.RdstatAnswersTheFlags := by
  refine ⟨fun s => ?_, ⟨_, exec_rdstat _, rfl⟩⟩
  obtain ⟨t, he, hr, hsame, hin⟩ := exec_read_answers (i := .rdstat) (s := s) rfl
  have hword := s.status.word_toNat
  exact ⟨t, _, he, hr, hsame, hin, by omega, s.status.word_lt⟩

end Sys2Proof.Proofs
end

section
/-! SUPPORT. More laws of the divider: the top mask, the bit step as arithmetic, the micro-inputs up to the
checkpoint, and the two extreme degrees (spec 41_compute.md R101, R102, R105, R112, R115). -/

namespace Sys2Proof.Machine

variable {w : Nat}

/-- The top mask has exactly bit `deg(p)` (R101). -/
theorem topMask_getLsbD {p : BitVec w} (hp : p ≠ 0#w) (j : Nat) : (topMask p).getLsbD j = decide (j = deg p) := by
  have hdeg := deg_lt hp
  unfold topMask
  rw [BitVec.getLsbD_shiftLeft, BitVec.getLsbD_one, Bool.eq_iff_iff]
  simp only [Bool.and_eq_true, Bool.not_eq_true', decide_eq_true_eq, decide_eq_false_iff_not]
  omega

/-- The value has the top mask's bit (R100, R101). -/
theorem and_topMask {p : BitVec w} (hp : p ≠ 0#w) : p &&& topMask p = topMask p := by
  apply BitVec.eq_of_getLsbD_eq
  intro i _
  rw [BitVec.getLsbD_and, topMask_getLsbD hp]
  by_cases hi : i = deg p
  · simp [hi, getLsbD_deg hp]
  · simp [hi]

/-- The bit step as arithmetic: the test and the XOR are on `trunc_W(2r + b)` (R102). -/
theorem bitstep_toNat (r : BitVec w) (b : Bool) (p : BitVec w) :
    (bitstep r b p).toNat =
      if ((2 * r.toNat + b.toNat) % 2 ^ w).testBit (deg p)
      then (2 * r.toNat + b.toNat) % 2 ^ w ^^^ p.toNat else (2 * r.toNat + b.toNat) % 2 ^ w := by
  rw [← shiftIn_toNat, bitstep, BitVec.getLsbD, apply_ite BitVec.toNat, BitVec.toNat_xor]

theorem zeroSteps_eq_iterate (p : BitVec w) (n : Nat) (r : BitVec w) :
    zeroSteps p n r = (fun r => bitstep r false p)^[n] r := by
  induction n generalizing r with
  | zero => rfl
  | succ n ih => rw [zeroSteps, ih, Function.iterate_succ_apply]

/-- A COMPUTE's micro-steps up to the checkpoint are the message bits (R106, R112). -/
theorem take_microInputs (bytes : List Byte) (p : BitVec w) :
    (microInputs bytes p).take (8 * bytes.length) = messageBits bytes :=
  List.take_left' (messageBits_length bytes)

/-! ### Degree 0 and degree W-1, in this hardware's width -/

theorem deg_eq_31 {p : Word} (hp : p.getLsbD 31 = true) : deg p = 31 := by
  have hne : p ≠ 0#32 := by rintro rfl; simp at hp
  have hle : ¬ deg p < 31 := fun h => by cases (getLsbD_of_deg_lt h).symm.trans hp
  have := deg_lt hne
  omega

/-- With degree 31 the shift discards only bit 31, which is clear below `2^31` (R115). -/
theorem shiftIn_toNat_of_lt {r : Word} (hr : r.toNat < 2 ^ 31) (b : Bool) :
    (shiftIn r b).toNat = 2 * r.toNat + b.toNat := by
  have hb := b.toNat_lt
  rw [shiftIn_toNat]
  omega

/-- With degree 0 the bit that comes in is the one that is tested and cleared (R115). -/
theorem bitstep_one (r : Word) (b : Bool) : bitstep r b 1#32 = r <<< 1 := by
  have hdeg : deg 1#32 = 0 := by decide
  apply BitVec.eq_of_getLsbD_eq
  intro i hi
  rw [bitstep_getLsbD, hdeg, shiftIn_getLsbD, shiftIn_getLsbD, BitVec.getLsbD_shiftLeft, BitVec.getLsbD_one]
  cases i with
  | zero => simp
  | succ i => simp

theorem drain_one (r : Word) : drain r 1#32 = r := rfl

theorem blockstep_zero_one (bytes : List Byte) : blockstep 0#32 bytes 1#32 = 0#32 := by
  have hlt : (blockstep 0#32 bytes 1#32).toNat < 2 ^ deg 1#32 := blockstep_lt (by decide) bytes (by decide)
  exact BitVec.eq_of_toNat_eq (Nat.lt_one_iff.mp hlt)

end Sys2Proof.Machine
end

section
/-! SUPPORT. The divider is long division over GF(2): shifting a bit in is multiplying by x and adding, XOR is addition,
and the message's bits make up its polynomial (spec 41_compute.md R111). -/

namespace Sys2Proof.Algebra

open Polynomial Sys2Proof.Machine

variable {w : Nat}

theorem coeff_bitPoly (b : Bool) (i : Nat) : (bitPoly b).coeff i = if i = 0 ∧ b = true then 1 else 0 := by
  cases b <;> simp [bitPoly, coeff_one]

/-- The polynomial `q` with the bits shifted in one after the other, each time `q(x)*x + b`. -/
noncomputable def shiftInPoly (q : (ZMod 2)[X]) (bits : List Bool) : (ZMod 2)[X] :=
  bits.foldl (fun q b => q * X + bitPoly b) q

theorem shiftInPoly_concat (q : (ZMod 2)[X]) (bits : List Bool) (b : Bool) :
    shiftInPoly q (bits ++ [b]) = shiftInPoly q bits * X + bitPoly b := by
  simp [shiftInPoly]

theorem shiftInPoly_eq (q : (ZMod 2)[X]) (bits : List Bool) :
    shiftInPoly q bits = q * X ^ bits.length + shiftInPoly 0 bits := by
  induction bits using List.reverseRecOn with
  | nil => simp [shiftInPoly]
  | append_singleton bits b ih =>
    rw [shiftInPoly_concat, shiftInPoly_concat, ih, List.length_append, List.length_singleton]
    ring

theorem shiftInPoly_zeros (q : (ZMod 2)[X]) (n : Nat) : shiftInPoly q (List.replicate n false) = q * X ^ n := by
  induction n with
  | zero => simp [shiftInPoly]
  | succ n ih =>
    rw [List.replicate_succ', shiftInPoly_concat, ih, bitPoly, if_neg Bool.false_ne_true]
    ring

/-! ### The message as a polynomial -/

/-- A new lowest bit is multiplying by x and adding it. -/
theorem bitsPoly_bit (b : Bool) (n k : Nat) : bitsPoly (Nat.bit b n) (k + 1) = bitsPoly n k * X + bitPoly b := by
  ext i
  rw [coeff_add, coeff_bitsPoly, coeff_bitPoly]
  cases i with
  | zero => simp
  | succ i => simp [coeff_mul_X, coeff_bitsPoly, Nat.testBit_bit_succ]

/-- The number whose bits these are, the most significant first. -/
def bitsNumber (m : Nat) (bits : List Bool) : Nat := bits.foldl (fun m b => Nat.bit b m) m

theorem bitsPoly_bitsNumber (bits : List Bool) : bitsPoly (bitsNumber 0 bits) bits.length = shiftInPoly 0 bits := by
  induction bits using List.reverseRecOn with
  | nil => simp [bitsPoly, shiftInPoly]
  | append_singleton bits b ih =>
    rw [shiftInPoly_concat, ← ih, ← bitsPoly_bit, List.length_append, List.length_singleton, bitsNumber,
      List.foldl_append]
    rfl

/-- A byte's bits, in the order of R42, make up its number. -/
theorem bitsNumber_byte (m : Nat) (y : Byte) : bitsNumber m (bitOrder.map y.getLsbD) = m * 256 + y.toNat := by
  have hy := y.isLt
  simp only [bitsNumber, bitOrder, List.map_cons, List.map_nil, List.foldl_cons, List.foldl_nil, Nat.bit_val,
    BitVec.getLsbD, Nat.toNat_testBit]
  omega

/-- The message's number is that of its bits (R42, R111). -/
theorem messageNumber_eq (bytes : List Byte) : messageNumber bytes = bitsNumber 0 (messageBits bytes) := by
  induction bytes using List.reverseRecOn with
  | nil => rfl
  | append_singleton bytes y ih =>
    have hbits : messageBits (bytes ++ [y]) = messageBits bytes ++ bitOrder.map y.getLsbD := by simp [messageBits]
    calc messageNumber (bytes ++ [y]) = messageNumber bytes * 256 + y.toNat := by simp [messageNumber]
      _ = bitsNumber (bitsNumber 0 (messageBits bytes)) (bitOrder.map y.getLsbD) := by rw [ih, bitsNumber_byte]
      _ = bitsNumber 0 (messageBits (bytes ++ [y])) := by
        simp only [hbits, bitsNumber, List.foldl_append]

theorem messagePoly_eq (bytes : List Byte) : messagePoly bytes = shiftInPoly 0 (messageBits bytes) := by
  rw [messagePoly, messageNumber_eq, ← messageBits_length, bitsPoly_bitsNumber]

/-! ### Remainders -/

/-- XOR is addition over GF(2). -/
theorem toPoly_xor (a b : BitVec w) : toPoly (a ^^^ b) = toPoly a + toPoly b := by
  ext i
  rw [coeff_add, coeff_toPoly, coeff_toPoly, coeff_toPoly, BitVec.getLsbD_xor]
  cases a.getLsbD i <;> cases b.getLsbD i <;> decide

/-- Shifting a bit in is `r(x)*x + b` where no bit is lost (R102). -/
theorem toPoly_shiftIn {r : BitVec w} {d : Nat} (hd : d < w) (hr : r.toNat < 2 ^ d) (b : Bool) :
    toPoly (shiftIn r b) = toPoly r * X + bitPoly b := by
  ext i
  rw [coeff_add, coeff_toPoly, coeff_bitPoly, shiftIn_getLsbD]
  cases i with
  | zero => simp [Nat.zero_lt_of_lt hd]
  | succ i =>
    have hlost : w ≤ i + 1 → r.getLsbD i = false := fun hw => toNat_lt_two_pow_iff.mp hr i (by omega)
    rw [coeff_mul_X, coeff_toPoly]
    by_cases hw : i + 1 < w
    · simp [hw]
    · simp [hw, hlost (not_lt.mp hw)]

/-- The remainder may be taken before multiplying and adding. -/
theorem mod_mul_add_mod (a b c q : (ZMod 2)[X]) : (a % q * b + c) % q = (a * b + c) % q := by
  apply mod_eq_of_dvd_sub
  rw [EuclideanDomain.mod_eq_sub_mul_div]
  exact ⟨-(a / q * b), by ring⟩

variable {r p : BitVec w}

section
variable (hp : p ≠ 0#w) (hr : r.toNat < 2 ^ deg p)
include hp hr

/-- A register below `2^deg(p)` is its own remainder (R109, R111). -/
theorem toPoly_mod_self : toPoly r % toPoly p = toPoly r := by
  have hdeg : (toPoly r).degree < (toPoly p).degree := by
    rw [degree_toPoly hp]
    exact degree_toPoly_lt hr
  have hne : toPoly p ≠ 0 := ne_zero_of_degree_gt hdeg
  exact (mod_eq_self_iff hne).mpr hdeg

/-- The bit step is one step of long division: it subtracts `p(x)` at most once (R111). -/
theorem toPoly_bitstep (b : Bool) : toPoly (bitstep r b p) = (toPoly r * X + bitPoly b) % toPoly p := by
  have hdvd : toPoly p ∣ toPoly (bitstep r b p) - toPoly (shiftIn r b) := by
    unfold bitstep
    split
    · simp [toPoly_xor]
    · simp
  calc toPoly (bitstep r b p) = toPoly (bitstep r b p) % toPoly p := (toPoly_mod_self hp (bitstep_lt hp hr)).symm
    _ = toPoly (shiftIn r b) % toPoly p := mod_eq_of_dvd_sub hdvd
    _ = (toPoly r * X + bitPoly b) % toPoly p := by rw [toPoly_shiftIn (deg_lt hp) hr]

/-- Any number of micro-steps is the remainder of the polynomial with all their bits shifted in. -/
theorem toPoly_foldl_bitstep (bits : List Bool) :
    toPoly (bits.foldl (fun r b => bitstep r b p) r) = shiftInPoly (toPoly r) bits % toPoly p := by
  induction bits using List.reverseRecOn with
  | nil => exact (toPoly_mod_self hp hr).symm
  | append_singleton bits b ih =>
    rw [List.foldl_append, List.foldl_cons, List.foldl_nil, toPoly_bitstep hp (foldl_bitstep_lt hp bits hr), ih,
      mod_mul_add_mod, shiftInPoly_concat]

theorem toPoly_blockstep (bytes : List Byte) :
    toPoly (blockstep r bytes p) = (toPoly r * X ^ (8 * bytes.length) + messagePoly bytes) % toPoly p := by
  rw [blockstep_eq_foldl, toPoly_foldl_bitstep hp hr, shiftInPoly_eq, messageBits_length, messagePoly_eq]

theorem toPoly_drain : toPoly (drain r p) = toPoly r * X ^ deg p % toPoly p := by
  rw [drain, zeroSteps_eq_foldl, toPoly_foldl_bitstep hp hr, shiftInPoly_zeros]

/-- The CRC is the whole dividend's remainder: the drain may start from the remainder (R111). -/
theorem toPoly_drain_blockstep (bytes : List Byte) :
    toPoly (drain (blockstep r bytes p) p) =
      (toPoly r * X ^ (8 * bytes.length) + messagePoly bytes) * X ^ deg p % toPoly p := by
  rw [toPoly_drain hp (blockstep_lt hp bytes hr), toPoly_blockstep hp hr]
  simpa using mod_mul_add_mod (toPoly r * X ^ (8 * bytes.length) + messagePoly bytes) (X ^ deg p) 0 (toPoly p)

end

end Sys2Proof.Algebra
end

section
/-! SUPPORT. What a COMPUTE did when it left CRCV set, its micro-steps, and the remainder's range along commands (spec
41_compute.md R106 to R109, R112). -/

namespace Sys2Proof.Machine

/-- What an answered COMPUTE did: it ran the divider over the bytes of its range, or it raised a fault (R106). -/
theorem exec_compute_cases {start len : Nat} {s t : State} (h : exec (.compute start len) s = .next t) :
    (∃ bytes, bytes.length = len ∧ Safety.RangeHolds s start bytes ∧ s.poly ≠ 0#32 ∧ start + len ≤ Config.bufLen ∧
      t = finishCompute bytes s) ∨
    ((s.poly = 0#32 ∨ Config.bufLen < start + len) ∧ ∃ f, t = raise f true s) := by
  cases exec_next h with
  | compute start' len' bytes hi hp hr hy =>
    cases hi
    obtain ⟨hlen, hh⟩ := readRange_eq_ok.mp hy
    exact .inl ⟨bytes, hlen, hh, hp, hr, rfl⟩
  | invalid start' len' hi hp => exact .inr ⟨.inl hp, _, rfl⟩
  | insufficient hi =>
    have hr : s.poly ≠ 0#32 ∧ Config.bufLen < start + len := by simpa using hi
    exact .inr ⟨.inr hr.2, _, rfl⟩
  | answer v hi => simp at hi
  | _ => contradiction

/-- A COMPUTE that leaves CRCV set ran over the bytes that its range holds (R106, R148). -/
theorem exec_compute_ran {start len : Nat} {s t : State} (h : exec (.compute start len) s = .next t)
    (hc : t.status.crcv = true) :
    ∃ bytes, bytes.length = len ∧ Safety.RangeHolds s start bytes ∧ s.poly ≠ 0#32 ∧ start + len ≤ Config.bufLen ∧
      t = finishCompute bytes s := by
  obtain hran | ⟨-, f, rfl⟩ := exec_compute_cases h
  · exact hran
  · simp at hc

/-! ### Chaining (R107) -/

theorem exec_compute_bytes {s : State} {start : Nat} {bytes : List Byte} (hp : s.poly ≠ 0#32)
    (hr : start + bytes.length ≤ Config.bufLen) (hh : Safety.RangeHolds s start bytes) :
    exec (.compute start bytes.length) s = .next (finishCompute bytes s) :=
  exec_compute_ok hp hr (readRange_of_rangeHolds hh)

theorem rangeHolds_append {s : State} {start : Nat} {xs ys : List Byte} (hx : Safety.RangeHolds s start xs)
    (hy : Safety.RangeHolds s (start + xs.length) ys) : Safety.RangeHolds s start (xs ++ ys) := by
  intro k hk
  rw [List.getElem_append]
  split
  case isTrue hlt => exact hx k hlt
  case isFalse hge =>
    have hread := hy (k - xs.length) (by rw [List.length_append] at hk; omega)
    rwa [show start + xs.length + (k - xs.length) = start + k by omega] at hread

/-- A COMPUTE over `ys` from the checkpoint of one over `xs` ends as a COMPUTE over both does (R107). -/
theorem finishCompute_append {s s' v : State} {xs ys : List Byte} (hp' : s'.poly = s.poly)
    (hr' : s'.reg = blockstep s.reg xs s.poly) (hp : v.poly = s.poly) (hr : v.reg = s.reg) :
    (finishCompute (xs ++ ys) v).reg = (finishCompute ys s').reg ∧
      (finishCompute (xs ++ ys) v).crc = (finishCompute ys s').crc := by
  simp only [finishCompute_reg, finishCompute_crc, hp', hr', hp, hr, blockstep_append, and_self]

/-! ### The range of the remainder (R109) -/

theorem exec_compute_remainder_lt {s t : State} {start len : Nat} (hs : Safety.RemainderInRange s)
    (h : exec (.compute start len) s = .next t) (hc : t.status.crcv = true) :
    t.reg.toNat < 2 ^ deg s.poly ∧ t.crc.toNat < 2 ^ deg s.poly := by
  obtain ⟨bytes, -, -, hp, -, rfl⟩ := exec_compute_ran h hc
  exact ⟨blockstep_lt hp bytes hs, drain_lt hp (blockstep_lt hp bytes hs)⟩

/-- What every command of the run keeps, the run keeps. -/
theorem runCommands_induction {P : State → Prop} {cmds : List Instr}
    (hstep : ∀ i ∈ cmds, ∀ s t, P s → exec i s = .next t → P t) {s t : State} (hs : P s)
    (h : Safety.runCommands cmds s = .next t) : P t := by
  induction cmds generalizing s with
  | nil => cases h; exact hs
  | cons i cmds ih =>
    obtain ⟨hi, hcmds⟩ := List.forall_mem_cons.mp hstep
    obtain ⟨u, he, hrun⟩ := runCommands_cons_eq_next h
    exact ih hcmds (hi s u hs he) hrun

/-- The invariant of commands under one polynomial `p`: both remainders below `2^deg(p)` (R109). -/
def RemaindersInRange (p : Word) (s : State) : Prop :=
  s.poly = p ∧ s.reg.toNat < 2 ^ deg p ∧ s.crc.toNat < 2 ^ deg p

/-- REG changes by an LDREG, here of 0, or with CRC by a COMPUTE, which keeps both remainders in range. -/
theorem exec_remaindersInRange {p : Word} {i : Instr} {s t : State} (hpoly : ∀ v, i ≠ .ldpoly v)
    (hreg : ∀ v, i = .ldreg v → v = 0#32) (hs : RemaindersInRange p s) (h : exec i s = .next t) :
    RemaindersInRange p t := by
  obtain ⟨rfl, hr, hcrc⟩ := hs
  have he := exec_next h
  have hcompute : i.isCompute = true ∧ t.status.crcv = true →
      t.reg.toNat < 2 ^ deg s.poly ∧ t.crc.toNat < 2 ^ deg s.poly := by
    rintro ⟨hi, hc⟩
    cases i with
    | compute start len => exact exec_compute_remainder_lt hr h hc
    | _ => cases hi
  refine ⟨he.poly_eq_of_not_ldpoly hpoly, ?_, ?_⟩
  · by_cases hne : t.reg = s.reg
    · rwa [hne]
    · obtain hi | hi := he.eq_ldreg_or_compute_of_reg_ne hne
      · rw [hreg _ hi]
        exact Nat.two_pow_pos _
      · exact (hcompute hi).1
  · by_cases hne : t.crc = s.crc
    · rwa [hne]
    · exact (hcompute (he.compute_of_crc_ne hne)).2

/-! ### The count of micro-steps (R112) -/

/-- A COMPUTE that faults takes no micro-step: both checks come before the divider (R106). -/
theorem microsteps_compute_of_fault {s : State} {start len : Nat}
    (h : s.poly = 0#32 ∨ Config.bufLen < start + len) : microsteps (.compute start len) s = 0 := by
  obtain hp | hr := h
  · exact if_pos hp
  · have hfits : rangeFits Config.thisHardware start len = false := decide_eq_false (not_le.mpr hr)
    simp [microsteps, microstepsWith, hfits]

/-- A COMPUTE that runs the divider takes one micro-step for each of its incoming bits. -/
theorem microsteps_compute {s : State} {start : Nat} {bytes : List Byte} (hp : s.poly ≠ 0#32)
    (hr : start + bytes.length ≤ Config.bufLen) (hh : Safety.RangeHolds s start bytes) :
    microsteps (.compute start bytes.length) s = (microInputs bytes s.poly).length := by
  have hfits : rangeFits Config.thisHardware start bytes.length = true := rangeFits_eq_true.mpr hr
  simp [microsteps, microstepsWith, hp, hfits, readRange_of_rangeHolds hh]

/-- A COMPUTE within the buffer takes at most `8*512 + 31` micro-steps. -/
theorem microsteps_bound {p : Word} (hp : p ≠ 0#32) {start len : Nat} (hr : start + len ≤ Config.bufLen) :
    8 * len + deg p ≤ 4127 := by
  have hdeg := deg_lt hp
  have hbuf : Config.bufLen = 512 := rfl
  omega

/-- An answered command takes the micro-steps of its COMPUTE, or it is no COMPUTE without fault and takes none. -/
theorem exec_microsteps_cases {i : Instr} {s t : State} (h : exec i s = .next t) :
    (∃ start len, i = .compute start len ∧ s.poly ≠ 0#32 ∧ start + len ≤ Config.bufLen ∧
      (∃ v, t.rsps = s.rsps ++ [.ok v]) ∧ microsteps i s = 8 * len + deg s.poly) ∨
    ((i.isCompute = true → t.status.crcv = false) ∧ microsteps i s = 0) := by
  cases i with
  | compute start len =>
    obtain ⟨bytes, rfl, hh, hp, hr, rfl⟩ | ⟨hfault, f, rfl⟩ := exec_compute_cases h
    · exact .inl ⟨start, _, rfl, hp, hr, ⟨_, finishCompute_rsps bytes s⟩,
        (microsteps_compute hp hr hh).trans (microInputs_length bytes s.poly)⟩
    · exact .inr ⟨fun _ => by simp, microsteps_compute_of_fault hfault⟩
  | _ => exact .inr ⟨nofun, rfl⟩

end Sys2Proof.Machine
end

section
/-! SUPPORT. No command looks at the host's streams (spec 41_compute.md R113; log entry 1). -/

namespace Sys2Proof.Machine

/-- The same block with other streams: these inputs to come, these responses given. -/
def State.withStreams (s : State) (xs : List HostInput) (rs : List Response) : State :=
  { s with inputs := xs, rsps := rs }

theorem eq_withStreams_of_sameBlock {s s' : State} (h : Safety.SameBlock s s') :
    s' = s.withStreams s'.inputs s'.rsps := by
  obtain ⟨hpoly, hreg, hcrc, hstatus, hbuf⟩ := h
  rw [State.withStreams, hpoly, hreg, hcrc, hstatus, hbuf]

theorem withStreams_sameBlock (s : State) (xs : List HostInput) (rs : List Response) :
    Safety.SameBlock s (s.withStreams xs rs) := ⟨rfl, rfl, rfl, rfl, rfl⟩

/-- With other streams a command gives the same response and the same next block. -/
theorem exec_next_withStreams {i : Instr} {s t : State} (h : exec i s = .next t) (xs : List HostInput)
    (rs : List Response) :
    ∃ r, t.rsps = s.rsps ++ [r] ∧ exec i (s.withStreams xs rs) = .next (t.withStreams xs (rs ++ [r])) := by
  cases exec_next h with
  | ldpoly imm hi => subst hi; exact ⟨_, rfl, rfl⟩
  | ldreg imm hi => subst hi; exact ⟨_, rfl, rfl⟩
  | answer v hi =>
    obtain ⟨rfl, rfl⟩ | ⟨rfl, rfl⟩ | ⟨rfl, rfl⟩ | ⟨rfl, rfl⟩ | ⟨a, y, rfl, ha, hy, rfl⟩ := hi
    · exact ⟨_, rfl, rfl⟩
    · exact ⟨_, rfl, rfl⟩
    · exact ⟨_, rfl, rfl⟩
    · exact ⟨_, rfl, rfl⟩
    · exact ⟨_, rfl, exec_rdbuf_ok ha hy⟩
  | wrbuf a y hi ha => subst hi; exact ⟨_, rfl, exec_wrbuf_ok ha y _⟩
  | compute start len bytes hi hp hr hy => subst hi; exact ⟨_, rfl, exec_compute_ok (s := s.withStreams xs rs) hp hr hy⟩
  | invalid start len hi hp => subst hi; exact ⟨_, rfl, exec_compute_invalid (s := s.withStreams xs rs) hp start len⟩
  | insufficient hi =>
    obtain ⟨start, len, rfl, hp, hr⟩ | ⟨a, y, rfl, ha⟩ | ⟨a, rfl, ha⟩ := hi
    · exact ⟨_, rfl, exec_compute_insufficient (s := s.withStreams xs rs) hp hr⟩
    · exact ⟨_, rfl, exec_wrbuf_fault ha y _⟩
    · exact ⟨_, rfl, exec_rdbuf_fault ha _⟩

/-- With other streams a command is refused alike. -/
theorem exec_refused_withStreams {i : Instr} {s : State} {x : Refusal} (h : exec i s = .refused x)
    (xs : List HostInput) (rs : List Response) : exec i (s.withStreams xs rs) = .refused x := by
  obtain ⟨a, rfl, ha, hnone, rfl⟩ | ⟨start, len, a, rfl, hp, hr, hread, rfl⟩ := exec_refused h
  · exact exec_rdbuf_refused ha hnone
  · exact exec_compute_refused (s := s.withStreams xs rs) hp hr hread

end Sys2Proof.Machine
end

section
/-! The obligations of 41_compute.md. -/

namespace Sys2Proof.Proofs

open Sys2Proof.Machine Sys2Proof.Algebra

/-- Settles O27: each micro-step is one step of long division, and a COMPUTE is its micro-steps. -/
theorem dividerIsPolynomialRemainder : Obligations.DividerIsPolynomialRemainder := by
  refine ⟨fun w r p hp hr => ⟨toPoly_bitstep hp hr, toPoly_blockstep hp hr, toPoly_drain hp hr⟩,
    fun s t start bytes hr hh h hc => ?_⟩
  obtain ⟨hp, -, rfl⟩ := exec_compute_of_crcv hh h hc
  exact ⟨toPoly_blockstep hp hr bytes, toPoly_drain_blockstep hp hr bytes⟩

/-- Settles O24: a micro-step and a COMPUTE keep the range, and so does every command of the run. -/
theorem remainderStaysInRange : Obligations.RemainderStaysInRange := by
  refine ⟨fun w r p b => bitstep_lt, fun s t start len => exec_compute_remainder_lt,
    fun cmds s t hcmds hp hreg hcrc h => ?_⟩
  exact runCommands_induction
    (fun i hi _ _ hs he => exec_remaindersInRange (hcmds i hi).1 (hcmds i hi).2 hs he) ⟨rfl, hreg, hcrc⟩ h

/-- Settles O28, by the case split of R106: written bytes, each fault, an unwritten byte. -/
theorem computeRunsTheDivider : Obligations.ComputeRunsTheDivider := by
  refine ⟨fun s start bytes hp hr hh => ?_, fun s start len hfault => ?_, fun s start len hp hr hw => ?_⟩
  · exact ⟨_, exec_compute_bytes hp hr hh, rfl, rfl, rfl, rfl, rfl, fun _ => rfl, rfl⟩
  · by_cases hp : s.poly = 0#32
    · exact ⟨_, .invalidPolynomial, exec_compute_invalid hp start len, rfl, by simp [hp], by simp [hp], by simp,
        by simp [eq_comm], rfl, rfl, rfl, fun _ => rfl, rfl⟩
    · exact ⟨_, .insufficientData, exec_compute_insufficient hp (hfault.resolve_left hp), rfl, by simp [hp],
        by simp [hp], by simp, by simp [eq_comm], rfl, rfl, rfl, fun _ => rfl, rfl⟩
  · obtain ⟨k, -, -, -, h⟩ := exec_compute_refused_at_lowest hp hr hw
    exact ⟨_, h⟩

/-- Settles O29: the checkpoint of the first COMPUTE is where the second goes on. -/
theorem computeChains : Obligations.ComputeChains := by
  refine ⟨fun w r p xs ys => blockstep_append r xs ys p, fun s t u start n1 n2 ht htc hu huc => ?_,
    fun s t s' u v a b c xs ys hx hy hxy hp' hr' hp hr hfits ht htc hu huc => ?_⟩
  · obtain ⟨xs, rfl, hx, hp, -, rfl⟩ := exec_compute_ran ht htc
    obtain ⟨ys, rfl, hy, -, hfits, rfl⟩ := exec_compute_ran hu huc
    have hexec := exec_compute_bytes hp (by rwa [List.length_append, ← Nat.add_assoc]) (rangeHolds_append hx hy)
    rw [List.length_append] at hexec
    exact ⟨_, hexec, and_assoc.mp ⟨finishCompute_append (s := s) rfl rfl rfl rfl, rfl⟩⟩
  · obtain ⟨hps, -, rfl⟩ := exec_compute_of_crcv hx ht htc
    obtain ⟨-, -, rfl⟩ := exec_compute_of_crcv hy hu huc
    exact ⟨_, exec_compute_bytes (hp ▸ hps) hfits hxy, finishCompute_append hp' hr' hp hr⟩

/-- Settles O31: the divider is one fold over the incoming bits, and only a COMPUTE without fault runs it. -/
theorem computeIsItsMicroSteps : Obligations.ComputeIsItsMicroSteps := by
  refine ⟨fun s t start bytes hh h hc => ?_, fun s t i h => ?_⟩
  · obtain ⟨hp, hr, rfl⟩ := exec_compute_of_crcv hh h hc
    rw [take_microInputs]
    exact ⟨drain_blockstep_eq_foldl s.reg bytes s.poly, blockstep_eq_foldl s.reg bytes s.poly,
      (microsteps_compute hp hr hh).symm⟩
  · obtain ⟨start, len, rfl, hp, hr, ⟨v, hv⟩, hcount⟩ | ⟨hc, hcount⟩ := exec_microsteps_cases h
    · refine ⟨fun _ _ hi _ => ?_, hcount ▸ microsteps_bound hp hr, fun hnone => ?_⟩
      · cases hi; exact hcount
      · simp [hv, Instr.isCompute] at hnone
    · refine ⟨fun _ _ hi ht => ?_, by omega, fun _ => hcount⟩
      subst hi
      simp [hc rfl] at ht

/-- Settles O21, by the laws of the degree and of the top mask. -/
theorem degreeIsTheHighestSetBit : Obligations.DegreeIsTheHighestSetBit :=
  fun _ _ hp => ⟨deg_lt hp, getLsbD_deg hp, fun _ => getLsbD_of_deg_lt, topMask_getLsbD hp, and_topMask hp⟩

/-- Settles O22: the shifted register is `trunc_W(2r + b)` (`shiftIn_toNat`). -/
theorem bitStepAsArithmetic : Obligations.BitStepAsArithmetic := fun _ r p b _ => bitstep_toNat r b p

/-- Settles O23: the loops are folds, unrolled or taken from the right. -/
theorem loopsOfTheDivider : Obligations.LoopsOfTheDivider :=
  fun _ r p => ⟨fun _ => rfl, blockstep_nil r p, fun ys y => blockstep_append r ys [y] p,
    zeroSteps_eq_iterate p (deg p) r⟩

/-- Settles O25: above bit `deg(p)` the polynomial has no bit to XOR; the examples by running the divider. -/
theorem highBitsAreNeverReduced : Obligations.HighBitsAreNeverReduced := by
  refine ⟨fun w r p b j hj => ?_, by decide +kernel⟩
  by_cases hw : j + 1 < w
  · rw [bitstep_getLsbD_high r b p hj hw, decide_eq_true hw, Bool.true_and]
  · rw [BitVec.getLsbD_of_ge _ _ (not_lt.mp hw), decide_eq_false hw, Bool.false_and]

/-- Settles O26: with degree 0 the bit that comes in is the one cleared; with degree W-1 the bit shifted out is clear,
and nothing is lost. -/
theorem extremeDegrees : Obligations.ExtremeDegrees := by
  refine ⟨bitstep_one, drain_one, fun s t start len hp h hc => ?_, fun p r b hp hr => ?_⟩
  · obtain ⟨bytes, -, -, -, -, rfl⟩ := exec_compute_ran h hc
    rw [finishCompute_crc, finishCompute_reg, hp]
    refine ⟨drain_one _, fun hr => ?_⟩
    rw [hr]
    exact blockstep_zero_one bytes
  · have hdeg := deg_eq_31 hp
    exact ⟨hdeg, by rw [topMask, hdeg]; rfl, shiftIn_toNat_of_lt hr b⟩

/-- Settles O39: two states that agree on the block differ in their streams alone, and no command looks at those. -/
theorem blockStateAloneDecides : Obligations.BlockStateAloneDecides := by
  intro i s s' hs
  rw [eq_withStreams_of_sameBlock hs]
  refine ⟨fun t h => ?_, fun x h => exec_refused_withStreams h _ _⟩
  obtain ⟨r, hr, h'⟩ := exec_next_withStreams h s'.inputs s'.rsps
  exact ⟨_, r, h', withStreams_sameBlock t _ _, hr, rfl⟩

/-- Settles O30: an empty range has no byte to read, so the checks alone decide, and the block step over it is the
identity. -/
theorem zeroLengthComputeDrains : Obligations.ZeroLengthComputeDrains :=
  ⟨fun s start hp hr => ⟨_, exec_compute_bytes (bytes := []) hp hr nofun, rfl, rfl, rfl, rfl⟩,
    fun s start hp => ⟨_, exec_compute_invalid hp start 0, rfl⟩,
    fun s start hp hr => ⟨_, exec_compute_insufficient hp hr, rfl⟩, by decide +kernel⟩

end Sys2Proof.Proofs
end

section
/-! SUPPORT. The chunk boundary sequence (spec 42_host_sequences.md R121): its entries, and that the chunks cover the
region in order. -/

namespace Sys2Proof.Machine

/-- The addresses of the chunks' bytes, chunk after chunk. -/
def chunkAddresses (cs : List (Nat × Nat)) : List Nat := cs.flatMap fun c => (List.range c.2).map (c.1 + ·)

theorem chunkAddresses_cons (c : Nat × Nat) (cs : List (Nat × Nat)) :
    chunkAddresses (c :: cs) = (List.range c.2).map (c.1 + ·) ++ chunkAddresses cs := List.flatMap_cons

variable {P : Config.Params} {len : Nat}

theorem chunksWith_zero (P : Config.Params) : chunksWith P 0 = [(0, 0)] := rfl

theorem chunksWith_of_pos (h : 0 < len) : chunksWith P len = (List.range (chunkCount P len)).map (chunkAt P len) :=
  if_neg h.ne'

theorem chunksWith_ne_nil (P : Config.Params) (hw : 1 ≤ P.chunkW) (len : Nat) : chunksWith P len ≠ [] := by
  rcases Nat.eq_zero_or_pos len with rfl | hlen
  · simp [chunksWith_zero]
  · have hcount : 0 < chunkCount P len := Nat.div_pos (by omega) hw
    rw [chunksWith_of_pos hlen, Ne, List.map_eq_nil_iff, List.range_eq_nil]
    omega

/-- There are enough chunks for the region, and the last one is needed (R121). -/
theorem lt_chunkCount_iff (hw : 1 ≤ P.chunkW) {j : Nat} : j < chunkCount P len ↔ j * P.chunkW < len := by
  rw [chunkCount, Nat.lt_div_iff_mul_lt hw]
  omega

/-- The first `n` chunks cover the region up to the end of the last of them. -/
theorem chunkAddresses_range (P : Config.Params) (len n : Nat) :
    chunkAddresses ((List.range n).map (chunkAt P len)) = List.range (min (n * P.chunkW) len) := by
  induction n with
  | zero => simp [chunkAddresses]
  | succ n ih =>
    have hlast : chunkAddresses ((List.range (n + 1)).map (chunkAt P len)) =
        List.range (min (n * P.chunkW) len) ++
          (List.range (min P.chunkW (len - n * P.chunkW))).map (n * P.chunkW + ·) := by
      rw [← ih]
      simp [List.range_succ, chunkAddresses, chunkAt]
    rw [hlast, Nat.succ_mul]
    rcases Nat.le_total (n * P.chunkW) len with h | h
    · rw [Nat.min_eq_left h, ← List.range_add]
      congr 1
      omega
    · rw [Nat.sub_eq_zero_of_le h, Nat.min_zero, List.range_zero, List.map_nil, List.append_nil]
      congr 1
      omega

/-- The chunks of a region cover it exactly, in order (R121). -/
theorem chunkAddresses_chunksWith (P : Config.Params) (hw : 1 ≤ P.chunkW) (len : Nat) :
    chunkAddresses (chunksWith P len) = List.range len := by
  rcases Nat.eq_zero_or_pos len with rfl | hlen
  · rfl
  · have hend : ¬ chunkCount P len * P.chunkW < len := (lt_chunkCount_iff hw).not.mp (lt_irrefl _)
    rw [chunksWith_of_pos hlen, chunkAddresses_range, Nat.min_eq_right (not_lt.mp hend)]

theorem chunksWith_length (hlen : 0 < len) : (chunksWith P len).length = chunkCount P len := by
  rw [chunksWith_of_pos hlen, List.length_map, List.length_range]

theorem chunksWith_getElem (hlen : 0 < len) {j : Nat} (hj : j < (chunksWith P len).length) :
    (chunksWith P len)[j] = chunkAt P len j := by
  simp only [chunksWith_of_pos hlen, List.getElem_map, List.getElem_range]

/-- No chunk reaches past the region (R121). -/
theorem chunksWith_le (hw : 1 ≤ P.chunkW) {c : Nat × Nat} (hc : c ∈ chunksWith P len) : c.1 + c.2 ≤ len := by
  rcases Nat.eq_zero_or_pos len with rfl | hlen
  · rw [chunksWith_zero, List.mem_singleton] at hc
    exact hc ▸ le_rfl
  · rw [chunksWith_of_pos hlen, List.mem_map] at hc
    obtain ⟨j, hj, rfl⟩ := hc
    have hstart : j * P.chunkW < len := (lt_chunkCount_iff hw).mp (List.mem_range.mp hj)
    simp only [chunkAt]
    omega

/-- A chunk that is not the last has the nominal width. -/
theorem chunkAt_full (hw : 1 ≤ P.chunkW) {j : Nat} (hj : j + 1 < chunkCount P len) :
    (chunkAt P len j).2 = P.chunkW := by
  have h : (j + 1) * P.chunkW < len := (lt_chunkCount_iff hw).mp hj
  rw [Nat.succ_mul] at h
  exact Nat.min_eq_left (by omega)

theorem chunkAt_pos (hw : 1 ≤ P.chunkW) {j : Nat} (hj : j < chunkCount P len) : 0 < (chunkAt P len j).2 :=
  Nat.lt_min.mpr ⟨hw, Nat.sub_pos_of_lt ((lt_chunkCount_iff hw).mp hj)⟩

end Sys2Proof.Machine
end

section
/-! SUPPORT. The trailer (spec 42_host_sequences.md R124): its digits as numbers, and that they tell values apart. -/

namespace Sys2Proof.Machine

@[simp] theorem hex8_length (v : Word) : (hex8 v).length = 8 := by
  rw [hex8, List.length_map, List.length_range]
  rfl

theorem hexDigit_toNat {n : Nat} (h : n < 16) :
    (hexDigit n).toNat = if n < 10 then 0x30 + n else 0x61 + (n - 10) := by
  unfold hexDigit
  split
  · rw [BitVec.toNat_ofNat]
    omega
  · rw [BitVec.toNat_ofNat]
    omega

theorem hexDigit_inj {m n : Nat} (hm : m < 16) (hn : n < 16) (h : hexDigit m = hexDigit n) : m = n := by
  have hnat := congrArg BitVec.toNat h
  rw [hexDigit_toNat hm, hexDigit_toNat hn] at hnat
  split at hnat <;> split at hnat <;> omega

/-- The `m`-th group of four bits from the top, the digit `v[31-4m : 28-4m]` of R124. -/
def hexGroup (v : Word) (m : Nat) : BitVec 4 := v.extractLsb' (28 - 4 * m) 4

theorem hex8_getElem (v : Word) {m : Nat} (hm : m < (hex8 v).length) : (hex8 v)[m] = hexDigit (hexGroup v m).toNat := by
  simp only [hex8, List.getElem_map, List.getElem_range, hexGroup]

theorem hexGroup_toNat (v : Word) {m : Nat} (hm : m < 8) : (hexGroup v m).toNat = v.toNat / 16 ^ (7 - m) % 16 := by
  have hpow : 2 ^ (28 - 4 * m) = 16 ^ (7 - m) := by
    rw [show (16 : Nat) = 2 ^ 4 from rfl, ← Nat.pow_mul]
    congr 1
    omega
  rw [hexGroup, BitVec.extractLsb'_toNat, Nat.shiftRight_eq_div_pow, hpow]

/-- Every bit of a value is in one of its eight groups. -/
theorem getLsbD_eq_hexGroup (v : Word) {i : Nat} (hi : i < 32) :
    v.getLsbD i = (hexGroup v (7 - i / 4)).getLsbD (i % 4) := by
  rw [hexGroup, BitVec.getLsbD_extractLsb', decide_eq_true (Nat.mod_lt i (by decide)), Bool.true_and]
  congr 1
  omega

/-- Different values have different trailers (R124). -/
theorem hex8_inj {v v' : Word} (h : hex8 v = hex8 v') : v = v' := by
  have hgroup : ∀ m, m < 8 → hexGroup v m = hexGroup v' m := fun m hm => by
    have hdigit : (hex8 v)[m]'(by simpa) = (hex8 v')[m]'(by simpa) := by simp only [h]
    rw [hex8_getElem, hex8_getElem] at hdigit
    exact BitVec.eq_of_toNat_eq (hexDigit_inj (BitVec.isLt _) (BitVec.isLt _) hdigit)
  apply BitVec.eq_of_getLsbD_eq
  intro i hi
  rw [getLsbD_eq_hexGroup v hi, getLsbD_eq_hexGroup v' hi, hgroup _ (by omega)]

theorem hex8_beq (v v' : Word) : (hex8 v == hex8 v') = decide (v = v') := by
  rw [Bool.eq_iff_iff, beq_iff_eq, decide_eq_true_iff]
  exact ⟨hex8_inj, congrArg hex8⟩

end Sys2Proof.Machine
end

section
/-! SUPPORT. The runs of the Mode Driver (spec 42_host_sequences.md R123, R125): the prologue up to the first COMPUTE, the
COMPUTEs as one (R130), the final CRC, and the two procedures over it. -/

namespace Sys2Proof.Machine

theorem legal_iff {P : Config.Params} :
    P.legal = true ↔ 1 ≤ P.bufLen ∧ P.bufLen ≤ 65535 ∧ 1 ≤ P.chunkW ∧ P.regionLen ≤ P.bufLen ∧ P.trailerLen = 8 ∧
      P.polyRef ≠ 0#32 := by
  simp [Config.Params.legal, and_assoc]

@[simp] theorem DriverOutcome.done_andThen {α β : Type} (a : α) (s : State) (k : α → State → DriverOutcome β) :
    (DriverOutcome.done a s).andThen k = k a s := rfl

/-- The CRC of a message from REG = 0: the drained value of one COMPUTE over all of it (R106). -/
def messageCrc (poly : Word) (data : List Byte) : Word := drain (blockstep 0#32 data poly) poly

variable {P : Config.Params}

/-- The bytes of a chunk, `f a` being the byte at the address `a`. -/
def chunkBytes (f : Nat → Byte) (c : Nat × Nat) : List Byte := ((List.range c.2).map (c.1 + ·)).map f

theorem readRange_chunk {f : Nat → Byte} {c : Nat × Nat} {m : Memory}
    (h : ∀ a ∈ (List.range c.2).map (c.1 + ·), m.read a = some (f a)) :
    readRange m c.1 c.2 = .ok (chunkBytes f c) := by
  refine readRange_eq_ok.mpr ⟨by simp [chunkBytes], fun k hk => ?_⟩
  have hk' : k < c.2 := by simpa [chunkBytes] using hk
  rw [h _ (List.mem_map_of_mem (List.mem_range.mpr hk'))]
  simp [chunkBytes]

/-- A COMPUTE of the driver over written bytes is answered with the CRC it leaves (R106, R123). -/
theorem issue_compute (hP : P.bufLen ≤ 65535) {s : State} (hp : s.poly ≠ 0#32) {start len : Nat} {bytes : List Byte}
    (hfit : start + len ≤ P.bufLen) (hread : readRange s.buf start len = .ok bytes) :
    issue P (.compute start len) s = .done (finishCompute bytes s).crc (finishCompute bytes s) :=
  issue_ok (decode_encode_compute (by omega) (by omega)) (execComputeWith_ok hp hfit hread) rfl

/-- A COMPUTE under the zero polynomial stops the driver, before its range is looked at (R141, R157). -/
theorem issue_compute_invalid {s : State} (hp : s.poly = 0#32) {start len : Nat} (hs : start < 65536)
    (hl : len < 65536) :
    issue P (.compute start len) s = .aborted .invalidPolynomial (raise .invalidPolynomial true s) :=
  issue_fault (decode_encode_compute hs hl) (execComputeWith_invalid hp P start len) rfl

/-- What the COMPUTEs of the chunks did, `f a` being the byte at the address `a`: their checkpoints carry REG through all
the bytes (R107, R130), CRC is the drained value, and the last response is CRC (R177). With no chunk nothing happens, so
the last response is then the earlier one, `e`. -/
structure ChunksRan (f : Nat → Byte) (cs : List (Nat × Nat)) (s : State) (events : List ProgressEvent) (t : State) :
    Prop where
  chunks : events.map Prod.fst = cs
  inputs : t.inputs = s.inputs
  reg : t.reg = blockstep s.reg ((chunkAddresses cs).map f) s.poly
  crc : s.crc = drain s.reg s.poly ∨ cs ≠ [] → t.crc = drain t.reg s.poly
  answer : ∀ e : ProgressEvent, e.2 = s.crc → (events.getLastD e).2 = t.crc

theorem chunksRan_nil (f : Nat → Byte) (s : State) : ChunksRan f [] s [] s where
  chunks := rfl
  inputs := rfl
  reg := rfl
  crc h := h.resolve_right (· rfl)
  answer _ h := h

/-- One more COMPUTE in front. -/
theorem ChunksRan.cons {f : Nat → Byte} {c : Nat × Nat} {cs : List (Nat × Nat)} {s t : State}
    {events : List ProgressEvent}
    (h : ChunksRan f cs (finishCompute (chunkBytes f c) s) events t) :
    ChunksRan f (c :: cs) s ((c, (finishCompute (chunkBytes f c) s).crc) :: events) t where
  chunks := congrArg (c :: ·) h.chunks
  inputs := h.inputs
  reg := by rw [h.reg, chunkAddresses_cons, List.map_append, blockstep_append]; rfl
  crc _ := h.crc (.inl rfl)
  answer _ _ := by rw [List.getLastD_cons]; exact h.answer _ rfl

/-- The last event has the value that CRC is left with (R177). -/
theorem ChunksRan.exists_last {f : Nat → Byte} {cs : List (Nat × Nat)} {s t : State} {events : List ProgressEvent}
    (h : ChunksRan f cs s events t) (hcs : cs ≠ []) : ∃ e, events.getLast? = some e ∧ e.2 = t.crc := by
  have hne : events ≠ [] := by
    rintro rfl
    exact hcs h.chunks.symm
  have hlast := h.answer ((0, 0), s.crc) rfl
  rw [List.getLastD_eq_getLast?, List.getLast?_eq_some_getLast hne] at hlast
  exact ⟨_, List.getLast?_eq_some_getLast hne, hlast⟩

/-- Chunks inside the buffer, over written bytes and under a polynomial other than 0, go through (R123). -/
theorem runChunks_ran (hP : P.bufLen ≤ 65535) (f : Nat → Byte) (cs : List (Nat × Nat)) (s : State)
    (hp : s.poly ≠ 0#32) (hfit : ∀ c ∈ cs, c.1 + c.2 ≤ P.bufLen)
    (hread : ∀ a ∈ chunkAddresses cs, s.buf.read a = some (f a)) :
    ∃ events t, runChunks P cs s = .done events t ∧ ChunksRan f cs s events t := by
  induction cs generalizing s with
  | nil => exact ⟨[], s, rfl, chunksRan_nil f s⟩
  | cons c cs ih =>
    obtain ⟨hc, hcs⟩ := List.forall_mem_cons.mp hfit
    rw [chunkAddresses_cons, List.forall_mem_append] at hread
    have hissue := issue_compute hP hp hc (readRange_chunk hread.1)
    obtain ⟨events, t, hrun, hran⟩ := ih (finishCompute (chunkBytes f c) s) hp hcs hread.2
    refine ⟨_, t, ?_, hran.cons⟩
    rw [runChunks, hissue, DriverOutcome.done_andThen, hrun, DriverOutcome.done_andThen]

/-- Before the first COMPUTE the region's bytes stand in BUF from address 0, POLY and REG are loaded, and every command
was answered OK(0); CRC is as it was (R122, R123). -/
theorem computeRegion_eq_runChunks (hP : P.bufLen ≤ 65535) {data : List Byte} (hfit : data.length ≤ P.bufLen)
    (poly : Word) (s : State) :
    ∃ u, computeRegion P data poly s = runChunks P (chunksWith P data.length) u ∧ u.poly = poly ∧ u.reg = 0#32 ∧
      u.crc = s.crc ∧ u.inputs = s.inputs ∧ u.rsps = s.rsps ++ List.replicate (data.length + 2) (.ok 0#32) ∧
      ∀ k (hk : k < data.length), u.buf.read k = some data[k] := by
  obtain ⟨u, hwrite, hpoly, -, hcrc, -, hinputs, hrsps, hread, -⟩ :=
    writeBytes_done hP data 0 (respond 0#32 { s with poly := poly }) (by omega)
  refine ⟨respond 0#32 { u with reg := 0#32 }, ?_, hpoly, rfl, hcrc, hinputs, ?_, fun k hk => ?_⟩
  · rw [computeRegion, issue_ldpoly, DriverOutcome.done_andThen, hwrite, DriverOutcome.done_andThen, issue_ldreg,
      DriverOutcome.done_andThen]
  · rw [respond_rsps, hrsps, respond_rsps, List.replicate_succ, List.replicate_succ']
    simp
  · have hk' := hread k hk
    rwa [Nat.zero_add] at hk'

/-- The bytes of a region, read chunk after chunk, are the region (R121). -/
theorem map_chunkAddresses_chunksWith (hw : 1 ≤ P.chunkW) (data : List Byte) :
    (chunkAddresses (chunksWith P data.length)).map (data.getD · 0#8) = data := by
  rw [chunkAddresses_chunksWith P hw]
  refine List.ext_getElem (by simp) fun k _ hk => ?_
  simp [hk]

/-- The driver's final CRC is the CRC of the whole region, whatever the chunks are (R123, R130). -/
theorem finalCrc_done (hP : P.legal = true) {data : List Byte} (hfit : data.length ≤ P.bufLen) {poly : Word}
    (hp : poly ≠ 0#32) (s : State) :
    ∃ t, finalCrc P data poly s = .done (messageCrc poly data) t ∧ t.crc = messageCrc poly data ∧
      t.reg = blockstep 0#32 data poly ∧ t.inputs = s.inputs := by
  obtain ⟨-, hbuf, hw, -⟩ := legal_iff.mp hP
  obtain ⟨u, hregion, hupoly, hureg, -, huinputs, -, huread⟩ := computeRegion_eq_runChunks hbuf hfit poly s
  have hcs := chunksWith_ne_nil P hw data.length
  obtain ⟨events, t, hrun, hran⟩ := runChunks_ran hbuf (data.getD · 0#8) (chunksWith P data.length) u (hupoly ▸ hp)
    (fun c hc => (chunksWith_le hw hc).trans hfit) (fun a ha => by
      rw [chunkAddresses_chunksWith P hw, List.mem_range] at ha
      simp [huread a ha, ha])
  obtain ⟨e, hlast, he⟩ := hran.exists_last hcs
  have hreg : t.reg = blockstep 0#32 data poly := by
    rw [hran.reg, map_chunkAddresses_chunksWith hw, hureg, hupoly]
  have hcrc : t.crc = messageCrc poly data := by
    rw [hran.crc (.inr hcs), hreg, hupoly, messageCrc]
  refine ⟨t, ?_, hcrc, hreg, hran.inputs.trans huinputs⟩
  rw [finalCrc, hregion, hrun, DriverOutcome.done_andThen, hlast, ← hcrc, ← he]

/-- Under the zero polynomial the first COMPUTE faults, and the driver stops there: the fault is taken in the state `u`
after the LDREG (R157). -/
theorem finalCrc_zero_poly (hP : P.legal = true) {data : List Byte} (hfit : data.length ≤ P.bufLen) (s : State) :
    ∃ u, finalCrc P data 0#32 s = .aborted .invalidPolynomial (raise .invalidPolynomial true u) ∧ u.reg = 0#32 ∧
      u.crc = s.crc ∧ u.inputs = s.inputs ∧ u.rsps = s.rsps ++ List.replicate (data.length + 2) (.ok 0#32) := by
  obtain ⟨-, hbuf, hw, -⟩ := legal_iff.mp hP
  obtain ⟨u, hregion, hpoly, hreg, hcrc, hinputs, hrsps, -⟩ := computeRegion_eq_runChunks hbuf hfit 0#32 s
  refine ⟨u, ?_, hreg, hcrc, hinputs, hrsps⟩
  obtain ⟨c, cs, hcs⟩ := List.exists_cons_of_ne_nil (chunksWith_ne_nil P hw data.length)
  have hc : c.1 + c.2 ≤ data.length := chunksWith_le hw (hcs ▸ List.mem_cons_self)
  rw [finalCrc, hregion, hcs, runChunks, issue_compute_invalid hpoly (by omega) (by omega)]
  rfl

variable {data : List Byte} {poly : Word}

theorem computeRecordWith_of_finalCrc (h : P.regionLen ≤ data.length) {s t : State} {v : Word}
    (hcrc : finalCrc P (dataRegion P data) poly s = .done v t) :
    computeRecordWith P data poly s = .done (dataRegion P data ++ hex8 v) t := by
  rw [computeRecordWith, if_neg (not_lt.mpr h), hcrc, DriverOutcome.done_andThen]

theorem verifyRecordWith_of_finalCrc (h : P.regionLen ≤ data.length) {s t : State} {v : Word}
    (hcrc : finalCrc P (dataRegion P data) poly s = .done v t) (stored : List Byte) :
    verifyRecordWith P data stored poly s = .done (hex8 v == stored) t := by
  rw [verifyRecordWith, if_neg (not_lt.mpr h), hcrc, DriverOutcome.done_andThen]

theorem dataRegion_length (h : P.regionLen ≤ data.length) : (dataRegion P data).length = P.regionLen :=
  List.length_take_of_le h

/-- A record is its region and its trailer (R127). -/
theorem recordTrailerWith_append (hP : P.legal = true) (h : P.regionLen ≤ data.length) (v : Word) :
    recordTrailerWith P (dataRegion P data ++ hex8 v) = hex8 v := by
  obtain ⟨-, -, -, -, htrailer, -⟩ := legal_iff.mp hP
  rw [recordTrailerWith, List.drop_left' (dataRegion_length h), List.take_of_length_le (by rw [hex8_length, htrailer])]

theorem recordTrailer_append (h : 504 ≤ data.length) (v : Word) :
    recordTrailer (dataRegion Config.thisHardware data ++ hex8 v) = hex8 v :=
  recordTrailerWith_append Config.thisHardware_legal h v

/-- Both procedures over a whole region end with the CRC of that region, from the same run (R123, R125). -/
theorem record_done (hP : P.legal = true) (h : P.regionLen ≤ data.length) (hp : poly ≠ 0#32) (s : State) :
    ∃ t, computeRecordWith P data poly s = .done (dataRegion P data ++ hex8 t.crc) t ∧
      (∀ stored, verifyRecordWith P data stored poly s = .done (hex8 t.crc == stored) t) ∧
      t.crc = messageCrc poly (dataRegion P data) ∧ t.reg = blockstep 0#32 (dataRegion P data) poly ∧
      t.inputs = s.inputs := by
  obtain ⟨-, -, -, hregion, -⟩ := legal_iff.mp hP
  obtain ⟨t, hrun, hcrc, hreg, hinputs⟩ := finalCrc_done hP ((dataRegion_length h).trans_le hregion) hp s
  rw [← hcrc] at hrun
  exact ⟨t, computeRecordWith_of_finalCrc h hrun, verifyRecordWith_of_finalCrc h hrun, hcrc, hreg, hinputs⟩

/-- Under the zero polynomial there is no record (R157). -/
theorem poly_ne_zero_of_record_done (hP : P.legal = true) (h : P.regionLen ≤ data.length) {s t : State}
    {record : List Byte} (hrec : computeRecordWith P data poly s = .done record t) : poly ≠ 0#32 := by
  rintro rfl
  obtain ⟨-, -, -, hregion, -⟩ := legal_iff.mp hP
  obtain ⟨u, hrun, -⟩ := finalCrc_zero_poly hP ((dataRegion_length h).trans_le hregion) s
  rw [computeRecordWith, if_neg (not_lt.mpr h), hrun] at hrec
  cases hrec

/-- Checked against the trailer of a record, data pass exactly where their CRC is the recorded data's (R125, R133). -/
theorem verifyRecord_recordTrailer {data' record : List Byte} (hlen : data.length = 504) (hlen' : data'.length = 504)
    {s t : State} (hrec : computeRecord data poly s = .done record t) (s' : State) :
    ∃ u, verifyRecord data' (recordTrailer record) poly s' =
      .done (decide (messageCrc poly data' = messageCrc poly data)) u := by
  have hP := Config.thisHardware_legal
  have hp : poly ≠ 0#32 := poly_ne_zero_of_record_done hP hlen.ge hrec
  have hwhole : ∀ ys : List Byte, ys.length = 504 → dataRegion Config.thisHardware ys = ys :=
    fun ys hys => List.take_of_length_le hys.le
  obtain ⟨v, hcompute, -, hv, -⟩ := record_done hP hlen.ge hp s
  obtain ⟨u, -, hverify, hu, -⟩ := record_done hP hlen'.ge hp s'
  cases hrec.symm.trans hcompute
  rw [hwhole data hlen] at hv
  rw [hwhole data' hlen'] at hu
  refine ⟨u, ?_⟩
  rw [recordTrailer_append hlen.ge, ← hu, ← hv, ← hex8_beq]
  exact hverify _

end Sys2Proof.Machine
end

section
/-! SUPPORT. When two messages have the same CRC, and what a flipped bit does to one (spec 90_conflicts.md C9). -/

namespace Sys2Proof.Algebra

open Polynomial Sys2Proof.Machine

variable {w : Nat} {p : BitVec w}

theorem toPoly_zero (w : Nat) : toPoly 0#w = 0 := by ext i; simp

/-- From REG = 0 the CRC is the remainder of the message times `x^deg(p)` (R111). -/
theorem toPoly_crc (hp : p ≠ 0#w) (bytes : List Byte) :
    toPoly (drain (blockstep 0#w bytes p) p) = messagePoly bytes * X ^ deg p % toPoly p := by
  rw [toPoly_drain_blockstep hp (by simp), toPoly_zero, zero_mul, zero_add]

theorem toPoly_one_shiftLeft {n : Nat} (hn : n < w) : toPoly (1#w <<< n) = X ^ n := by
  ext i
  rw [coeff_toPoly, coeff_X_pow]
  congr 1
  rw [BitVec.getLsbD_shiftLeft, BitVec.getLsbD_one, eq_iff_iff]
  simp only [Bool.and_eq_true, Bool.not_eq_true', decide_eq_true_eq, decide_eq_false_iff_not]
  omega

/-- The bytes of a message are shifted in one after the other. -/
theorem messagePoly_append (xs ys : List Byte) :
    messagePoly (xs ++ ys) = messagePoly xs * X ^ (8 * ys.length) + messagePoly ys := by
  have hbits : messageBits (xs ++ ys) = messageBits xs ++ messageBits ys := List.flatMap_append
  simp only [messagePoly_eq, hbits]
  rw [← messageBits_length, ← shiftInPoly_eq, shiftInPoly, List.foldl_append]
  rfl

theorem messagePoly_singleton (y : Byte) : messagePoly [y] = toPoly y := by
  simp [messagePoly, toPoly, messageNumber]

/-- A flipped bit adds a power of x to the message. -/
theorem messagePoly_flip {data : List Byte} {n k : Nat} (hn : n < data.length) (hk : k < 8) :
    ∃ m, messagePoly (data.set n (data[n] ^^^ (1#8 <<< k))) = messagePoly data + X ^ m := by
  have hdata : data = data.take n ++ ([data[n]] ++ data.drop (n + 1)) := by simp
  have hset : data.set n (data[n] ^^^ (1#8 <<< k)) =
      data.take n ++ ([data[n] ^^^ (1#8 <<< k)] ++ data.drop (n + 1)) := by
    rw [List.set_eq_take_append_cons_drop, if_pos hn]
    rfl
  have hsum := congrArg messagePoly hdata
  refine ⟨k + 8 * (data.drop (n + 1)).length, ?_⟩
  rw [hset, hsum]
  simp only [messagePoly_append, messagePoly_singleton, toPoly_xor, toPoly_one_shiftLeft hk, List.length_append,
    List.length_singleton]
  ring

theorem monic_toPoly (hp : p ≠ 0#w) : (toPoly p).Monic := by
  rw [Monic, leadingCoeff, natDegree_eq_of_degree_eq_some (degree_toPoly hp), coeff_toPoly, if_pos (getLsbD_deg hp)]

/-- Only a polynomial with a single bit divides a power of x. -/
theorem eq_of_getLsbD_of_dvd_X_pow {m i j : Nat} (h : toPoly p ∣ X ^ m) (hi : p.getLsbD i = true)
    (hj : p.getLsbD j = true) : i = j := by
  have hp : p ≠ 0#w := by rintro rfl; simp at hi
  obtain ⟨d, -, hassoc⟩ := (dvd_prime_pow prime_X m).mp h
  have hpow : toPoly p = X ^ d := eq_of_monic_of_associated (monic_toPoly hp) (monic_X_pow d) hassoc
  have hbit : ∀ e, p.getLsbD e = true → e = d := fun e he => by
    by_contra hne
    have hcoeff := coeff_toPoly p e
    rw [hpow, coeff_X_pow, if_neg hne, if_pos he] at hcoeff
    exact zero_ne_one hcoeff
  rw [hbit i hi, hbit j hj]

/-- With two bits set, a message with a flipped bit has another CRC (C9). -/
theorem crc_flip_ne {i j : Nat} (hij : i ≠ j) (hi : p.getLsbD i = true) (hj : p.getLsbD j = true)
    {data : List Byte} {n k : Nat} (hn : n < data.length) (hk : k < 8) :
    drain (blockstep 0#w (data.set n (data[n] ^^^ (1#8 <<< k))) p) p ≠ drain (blockstep 0#w data p) p := by
  intro heq
  have hp : p ≠ 0#w := by rintro rfl; simp at hi
  obtain ⟨m, hm⟩ := messagePoly_flip hn hk
  have hmod := congrArg toPoly heq
  rw [toPoly_crc hp, toPoly_crc hp, hm, ← sub_eq_zero, ← sub_mod, EuclideanDomain.mod_eq_zero] at hmod
  have hdvd : toPoly p ∣ X ^ (m + deg p) := by convert hmod using 1; ring
  exact hij (eq_of_getLsbD_of_dvd_X_pow hdvd hi hj)

/-- With a single bit set, every message has CRC 0 (C9). -/
theorem crc_one_shiftLeft {n : Nat} (hn : n < w) (data : List Byte) :
    drain (blockstep 0#w data (1#w <<< n)) (1#w <<< n) = 0#w := by
  have hp : 1#w <<< n ≠ 0#w := fun h => by
    have hpoly := toPoly_one_shiftLeft hn
    rw [h, toPoly_zero] at hpoly
    exact pow_ne_zero n X_ne_zero hpoly.symm
  have hdeg : deg (1#w <<< n) = n := by
    have hdegree := degree_toPoly hp
    rw [toPoly_one_shiftLeft hn, degree_X_pow] at hdegree
    exact_mod_cast hdegree.symm
  apply toPoly_inj
  rw [toPoly_crc hp, toPoly_one_shiftLeft hn, hdeg, toPoly_zero, EuclideanDomain.mod_eq_zero]
  exact dvd_mul_left _ _

end Sys2Proof.Algebra
end

section
/-! The obligations of 42_host_sequences.md. -/

namespace Sys2Proof.Proofs

open Sys2Proof.Machine Sys2Proof.Algebra

/-- Settles O45: the `j`-th chunk is needed exactly where it starts inside the region (`lt_chunkCount_iff`). -/
theorem chunksPartitionTheRegion : Obligations.ChunksPartitionTheRegion := by
  refine ⟨chunksWith_zero, fun P len hw => chunkAddresses_chunksWith P hw len, fun P len hw hlen =>
    ⟨chunksWith_length hlen, fun j hj => ?_⟩, by decide⟩
  have hcount := chunksWith_length (P := P) hlen
  rw [chunksWith_getElem hlen, hcount]
  exact ⟨rfl, chunkAt_pos hw (hcount ▸ hj), chunkAt_full hw⟩

/-- Settles O46: a trailer's characters are the digits of the value's groups of four bits. -/
theorem trailerIsEightHexDigits : Obligations.TrailerIsEightHexDigits := by
  refine ⟨fun v => ⟨hex8_length v, fun m hm d hd => ?_⟩, fun _ _ => hex8_inj⟩
  have hm8 : m < 8 := hex8_length v ▸ hm
  rw [hex8_getElem, hexDigit_toNat (BitVec.isLt _), hexGroup_toNat v hm8, hd]

/-- Settles O47: the chunks' COMPUTEs carry REG through the whole region (`runChunks_ran`). -/
theorem computeRecordAppendsTheCrc : Obligations.ComputeRecordAppendsTheCrc := by
  refine ⟨fun P data poly s hP hlen hp => ?_, fun data stored poly s hlen hp => ?_⟩
  · obtain ⟨t, hcompute, hverify, hcrc, hreg, hinputs⟩ := record_done hP hlen hp s
    exact ⟨t, by rw [hcompute, hcrc]; rfl, hcrc, hreg, hinputs, hverify⟩
  · obtain ⟨t, hcompute, hverify, -⟩ := record_done Config.thisHardware_legal hlen hp s
    have hregion : (dataRegion Config.thisHardware data).length = 504 := dataRegion_length hlen
    have htrailer := recordTrailer_append hlen t.crc
    refine ⟨_, t, hcompute, ?_, List.take_left' hregion, htrailer, ?_⟩
    · rw [List.length_append, hregion, hex8_length]
    · rw [htrailer]
      exact hverify stored

/-- Settles O48: both runs end with the CRC of the same region. -/
theorem verifyAcceptsWhatComputeMade : Obligations.VerifyAcceptsWhatComputeMade := by
  intro data record poly s t s' hlen hrec
  obtain ⟨u, hverify⟩ := verifyRecord_recordTrailer hlen hlen hrec s'
  exact ⟨u, hverify.trans (by rw [decide_eq_true rfl])⟩

/-- Settles O49: the flip adds a power of x to the message, which no polynomial with two bits divides; with one bit the
dividend is a multiple of the polynomial. -/
theorem flippedBitIsDetected : Obligations.FlippedBitIsDetected := by
  refine ⟨fun poly i j hij hi hj data record s t s' n k hn hlen hk hrec => ?_,
    fun n data hn => crc_one_shiftLeft hn data⟩
  have hne : messageCrc poly (data.set n (data[n] ^^^ (1#8 <<< k))) ≠ messageCrc poly data :=
    crc_flip_ne hij hi hj hn hk
  obtain ⟨u, hverify⟩ := verifyRecord_recordTrailer hlen ((List.length_set ..).trans hlen) hrec s'
  exact ⟨u, hverify.trans (by rw [decide_eq_false hne])⟩

/-- Settles O50: the length check comes before the first command. -/
theorem shortDataIssuesNoCommand : Obligations.ShortDataIssuesNoCommand :=
  fun _ _ _ _ h => ⟨if_pos h, if_pos h⟩

end Sys2Proof.Proofs
end

section
/-! SUPPORT. A command word answered with a fault is that fault taken, and which fault a command can raise (spec
60_exceptions.md R147, R148). -/

namespace Sys2Proof.Machine

/-- A command answered with a fault took that fault and did nothing else (R148). -/
theorem Effect.eq_raise_of_answers_fault {i : Instr} {s t : State} {f : Fault} (h : Effect i s t)
    (hr : t.rsps = s.rsps ++ [.fault f]) : t = raise f i.isCompute s := by
  obtain hok | ⟨g, rfl⟩ := h.answersOk_or_raise
  · obtain ⟨v, hv⟩ := hok.rsps
    simp [hv] at hr
  · obtain rfl : g = f := by simpa using hr
    rfl

/-- So did a word: a word that is no command takes IllegalCommand as a command other than COMPUTE would (R143, R148). -/
theorem step_eq_raise_of_answers_fault {s t : State} {c : CmdWord} {rest : List HostInput} {f : Fault}
    (hin : s.inputs = .command c :: rest) (h : step s = .next t) (hr : t.rsps = s.rsps ++ [.fault f]) :
    t = raise f ((decode c).any Instr.isCompute) { s with inputs := rest } := by
  obtain ⟨i, hd, he⟩ | ⟨hd, rfl⟩ := step_word_cases hin h
  · rw [hd]
    exact (exec_next he).eq_raise_of_answers_fault hr
  · obtain rfl : Fault.illegalCommand = f := by simpa using hr
    rw [hd]
    rfl

/-- The response word of a fault: its code above a zero data field (R65, R148). -/
theorem Fault.word_toNat (f : Fault) : (Response.fault f).word.toNat = f.code.toNat * 2 ^ 32 := by
  simp [Response.word_toNat, Response.st, Response.dat]

/-- The one fault of a command other than COMPUTE is InsufficientData (R147). -/
theorem exec_fault_of_not_isCompute {i : Instr} {s t : State} {f : Fault} (hi : i.isCompute = false)
    (h : exec i s = .next t) (hr : t.rsps = s.rsps ++ [.fault f]) : f = .insufficientData := by
  cases f with
  | insufficientData => rfl
  | illegalCommand => exact absurd hr (exec_next h).not_answers_illegalCommand
  | invalidPolynomial =>
    obtain ⟨-, start, len, rfl⟩ := (exec_answers_invalidPolynomial_iff h).mp hr
    cases hi

end Sys2Proof.Machine
end

section
/-! SUPPORT. Several blocks (spec 60_exceptions.md R154): when a step of one, and a run of two, answers a next
system. -/

namespace Sys2Proof.Machine

/-- A step of the `k`-th block puts that block's own next state in its place and looks at no other. Where there is no
`k`-th block, `t` is any state and `set` leaves the system. -/
theorem stepInstance_eq_next_iff {k : Nat} {sys sys' : List State} :
    stepInstance k sys = .next sys' ↔
      ∃ t, (∀ s, sys[k]? = some s → step s = .next t) ∧ sys' = sys.set k t := by
  cases hk : sys[k]? with
  | none =>
    have hset (t : State) : sys.set k t = sys := List.set_eq_of_length_le (List.getElem?_eq_none_iff.mp hk)
    have : Nonempty State := ⟨State.reset⟩
    simp [stepInstance, hk, hset, eq_comm]
  | some s =>
    cases hs : step s with
    | next t => simp [stepInstance, hk, hs, eq_comm]
    | fault f => simp [stepInstance, hk, hs]
    | refused r => simp [stepInstance, hk, hs]

theorem runInstances_pair_eq_next_iff {j k : Nat} {sys sys' : List State} :
    runInstances [j, k] sys = .next sys' ↔
      ∃ mid, stepInstance j sys = .next mid ∧ stepInstance k mid = .next sys' := by
  cases hj : stepInstance j sys with
  | next mid => cases hk : stepInstance k mid <;> simp [runInstances, hj, hk]
  | fault f => simp [runInstances, hj]
  | refused r => simp [runInstances, hj]

/-- A step of another block answers as it would without the first one's step (R154). -/
theorem stepInstance_set_eq_next_iff {j k : Nat} (hjk : j ≠ k) {sys sys' : List State} {t : State} :
    stepInstance k (sys.set j t) = .next sys' ↔
      ∃ u, (∀ s, sys[k]? = some s → step s = .next u) ∧ sys' = (sys.set j t).set k u := by
  rw [stepInstance_eq_next_iff, List.getElem?_set_ne hjk]

/-- Two blocks step in the one order as in the other (R154). -/
theorem runInstances_pair_comm {j k : Nat} (hjk : j ≠ k) {sys sys' : List State}
    (h : runInstances [j, k] sys = .next sys') : runInstances [k, j] sys = .next sys' := by
  obtain ⟨mid, hj, hk⟩ := runInstances_pair_eq_next_iff.mp h
  obtain ⟨t, ht, rfl⟩ := stepInstance_eq_next_iff.mp hj
  obtain ⟨u, hu, rfl⟩ := (stepInstance_set_eq_next_iff hjk).mp hk
  exact runInstances_pair_eq_next_iff.mpr ⟨sys.set k u, stepInstance_eq_next_iff.mpr ⟨u, hu, rfl⟩,
    (stepInstance_set_eq_next_iff hjk.symm).mpr ⟨t, ht, List.set_comm t u hjk⟩⟩

end Sys2Proof.Machine
end

section
/-! SUPPORT. Both procedures of the driver stop where its run over the region stopped (spec 60_exceptions.md R157). -/

namespace Sys2Proof.Machine

variable {P : Config.Params} {data : List Byte} {poly : Word} {s t : State} {f : Fault}

theorem computeRecordWith_of_finalCrc_aborted (h : P.regionLen ≤ data.length)
    (hcrc : finalCrc P (dataRegion P data) poly s = .aborted f t) :
    computeRecordWith P data poly s = .aborted f t := by
  rw [computeRecordWith, if_neg (not_lt.mpr h), hcrc, DriverOutcome.andThen]

theorem verifyRecordWith_of_finalCrc_aborted (h : P.regionLen ≤ data.length)
    (hcrc : finalCrc P (dataRegion P data) poly s = .aborted f t) (stored : List Byte) :
    verifyRecordWith P data stored poly s = .aborted f t := by
  rw [verifyRecordWith, if_neg (not_lt.mpr h), hcrc, DriverOutcome.andThen]

end Sys2Proof.Machine
end

section
/-! The obligations of 60_exceptions.md. -/

namespace Sys2Proof.Proofs

open Sys2Proof.Machine

/-- Settles O34: the step is the taking of the fault, `raise`, whichever command raised it. -/
theorem faultChangesOnlyFlags : Obligations.FaultChangesOnlyFlags := by
  intro s t c rest f hin h hr
  obtain rfl := step_eq_raise_of_answers_fault hin h hr
  have hsticky := afterFault_sticky s.status f
  exact ⟨rfl, rfl, rfl, fun _ => rfl, hsticky .invalidPolynomial _, hsticky .insufficientData _,
    hsticky .illegalCommand _, afterFault_crcv _ _ _, f.word_toNat, rfl⟩

/-- Settles O35: one reasoning rule of `step` or COMPUTE for each place in the order. -/
theorem faultPriority : Obligations.FaultPriority :=
  ⟨fun _ _ _ hin hd => ⟨_, step_illegal hin hd, rfl, rfl⟩,
    fun _ start len hp => ⟨_, exec_compute_invalid hp start len, rfl, rfl⟩,
    fun _ _ _ hp hr => ⟨_, exec_compute_insufficient hp hr, rfl, rfl⟩,
    fun _ _ _ _ => exec_fault_of_not_isCompute⟩

/-- Settles O44: a step of one block is its own step, put in its place. -/
theorem instancesDoNotInteract : Obligations.InstancesDoNotInteract := by
  refine ⟨fun k sys sys' h => ?_, fun _ _ _ _ hjk => runInstances_pair_comm hjk⟩
  obtain ⟨t, ht, rfl⟩ := stepInstance_eq_next_iff.mp h
  refine ⟨List.length_set, fun j hj => List.getElem?_set_ne hj.symm, fun s hs => ⟨t, ht s hs, ?_⟩⟩
  exact List.getElem?_set_self (List.getElem?_eq_some_iff.mp hs).1

/-- Settles O51, by `finalCrc_zero_poly`: the run over the region stops at its first COMPUTE, and both procedures with
it. -/
theorem zeroPolynomialAbortsTheRecord : Obligations.ZeroPolynomialAbortsTheRecord := by
  intro data stored s hlen
  have hregion : dataRegion Config.thisHardware data = data := List.take_of_length_le hlen.le
  have hfit : data.length ≤ Config.thisHardware.bufLen := hlen.trans_le (by decide)
  obtain ⟨u, hrun, hreg, hcrc, hinputs, hrsps⟩ := finalCrc_zero_poly Config.thisHardware_legal hfit s
  rw [hlen] at hrsps
  rw [← hregion] at hrun
  refine ⟨_, computeRecordWith_of_finalCrc_aborted hlen.ge hrun,
    verifyRecordWith_of_finalCrc_aborted hlen.ge hrun stored, ?_, hreg, hcrc, rfl, hinputs⟩
  rw [raise_rsps, hrsps]

end Sys2Proof.Proofs
end

section
/-! SUPPORT. What a COMPUTE depends on, and what commands that write no POLY and no byte of its range leave of it (spec
70_reset_and_hazards.md R172, R173; 41_compute.md R106). -/

namespace Sys2Proof.Machine

theorem runCommands_append_eq_next {xs ys : List Instr} {s t : State}
    (h : Safety.runCommands (xs ++ ys) s = .next t) :
    ∃ u, Safety.runCommands xs s = .next u ∧ Safety.runCommands ys u = .next t := by
  induction xs generalizing s with
  | nil => exact ⟨s, rfl, h⟩
  | cons i xs ih =>
    obtain ⟨s', he, hrun⟩ := runCommands_cons_eq_next h
    obtain ⟨u, hx, hy⟩ := ih hrun
    exact ⟨u, (runCommands_cons_of_exec_next he xs).trans hx, hy⟩

/-- Only a WRBUF to an address changes what it holds (10_state.md R31). -/
theorem Effect.read_buf_eq_of_not_wrbuf {i : Instr} {s t : State} (h : Effect i s t) {a : Nat}
    (hi : ∀ y, i ≠ .wrbuf a y) : t.buf.read a = s.buf.read a := by
  by_contra hne
  obtain ⟨y, hy, -⟩ := h.eq_wrbuf_of_read_ne hne
  exact hi y hy

theorem runCommands_read_of_no_wrbuf {cmds : List Instr} {s t : State} {a : Nat}
    (hc : ∀ i ∈ cmds, ∀ y, i ≠ .wrbuf a y) (h : Safety.runCommands cmds s = .next t) :
    t.buf.read a = s.buf.read a :=
  runCommands_induction (P := fun x => x.buf.read a = s.buf.read a)
    (fun i hi _ _ hx he => ((exec_next he).read_buf_eq_of_not_wrbuf (hc i hi)).trans hx) rfl h

/-- A COMPUTE that fails a check raises a fault (R106). -/
theorem exec_compute_fault {s : State} {start len : Nat} (h : s.poly = 0#32 ∨ Config.bufLen < start + len) :
    ∃ f, exec (.compute start len) s = .next (raise f true s) := by
  by_cases hp : s.poly = 0#32
  · exact ⟨_, exec_compute_invalid hp start len⟩
  · exact ⟨_, exec_compute_insufficient hp (h.resolve_left hp)⟩

/-- POLY, REG and the bytes of its range are all that a COMPUTE depends on: from another state that agrees on them it
ends alike. A fault leaves each state its own CRC. -/
theorem exec_compute_congr {s t u : State} {start len : Nat} (hpoly : t.poly = s.poly) (hreg : t.reg = s.reg)
    (hbuf : ∀ k, k < len → t.buf.read (start + k) = s.buf.read (start + k))
    (h : exec (.compute start len) s = .next u) :
    ∃ v, exec (.compute start len) t = .next v ∧ v.reg = u.reg ∧ (u.status.crcv = true → v.crc = u.crc) ∧
      v.status.crcv = u.status.crcv := by
  obtain ⟨bytes, rfl, hh, hp, hr, rfl⟩ | ⟨hfault, f, rfl⟩ := exec_compute_cases h
  · have hh' : Safety.RangeHolds t start bytes := fun k hk => (hbuf k hk).trans (hh k hk)
    exact ⟨_, exec_compute_bytes (hpoly ▸ hp) hr hh', by simp [hpoly, hreg], by simp [hpoly, hreg], rfl⟩
  · rw [← hpoly] at hfault
    obtain ⟨g, hg⟩ := exec_compute_fault hfault
    exact ⟨_, hg, hreg, by simp, by simp⟩

end Sys2Proof.Machine
end

section
/-! The obligations of 70_reset_and_hazards.md. -/

namespace Sys2Proof.Proofs

open Sys2Proof.Machine

/-- Settles O32: the boot duties are COMPUTE's own conditions, and without an LDPOLY the POLY of reset stays 0. -/
theorem readyBlockComputesTheCrc : Obligations.ReadyBlockComputesTheCrc := by
  refine ⟨fun s start len hready => ?_, fun cmds s start len hc h => ?_⟩
  · obtain ⟨hp, hr, hw, hreg⟩ := hready
    obtain ⟨bytes, hread⟩ := readRange_ok_of_written hw
    obtain ⟨hlen, hh⟩ := readRange_eq_ok.mp hread
    exact ⟨_, bytes, exec_compute_ok hp hr hread, hlen, hh, by rw [finishCompute_rsps, hreg]⟩
  · have hp : s.poly = 0#32 := runCommands_poly_of_no_ldpoly hc h
    exact ⟨_, exec_compute_invalid hp start len, rfl, rfl⟩

/-- Settles O33: the interruption leaves POLY and the bytes of the range, the LDREG puts REG back, and these are all
that a COMPUTE depends on (`exec_compute_congr`). -/
theorem savedRegisterResumesTheDivision : Obligations.SavedRegisterResumesTheDivision := by
  intro cmds s t u start len hcmds hrun hu
  obtain ⟨s', hs', ht⟩ := runCommands_append_eq_next hrun
  cases (runCommands_cons_of_exec_next (exec_ldreg s.reg s') []).symm.trans ht
  have hpoly : s'.poly = s.poly := runCommands_poly_of_no_ldpoly (fun i hi => (hcmds i hi).1) hs'
  have hbuf (k : Nat) (hk : k < len) : s'.buf.read (start + k) = s.buf.read (start + k) := by
    refine runCommands_read_of_no_wrbuf (fun i hi y hy => ?_) hs'
    have hout := (hcmds i hi).2 _ y hy
    omega
  exact exec_compute_congr hpoly rfl hbuf hu

end Sys2Proof.Proofs
end
